-- ==== Sys2Proof/Word.lean ====
section
/-! DEFINITION. The plain types of the cipher engine: port bytes, letter indices, tables, selectors and the three
rotor slots (`00_scope.md` R7 to R11, `10_state.md` R13 to R16). Ranges are types, not bit patterns, as
`93_implementation_defined.md` S7 asks. -/

namespace Sys2Proof

/-- One byte on a port, an 8-bit character code (`30_encoding.md` R45). -/
abbrev Byte := BitVec 8

/-- The index of a letter: `A` is 0, `Z` is 25 (`00_scope.md` R9). -/
abbrev Idx := Fin 26

/-- A table of 26 entries addressed by position: a rotor wiring, a reflector wiring or the plugboard
(`00_scope.md` R8, `20_memory.md` R29). -/
abbrev Table := Vector Idx 26

/-- What a rotor selector register can hold: the codes `1` to `5` (`10_state.md` R14). -/
inductive RotorSel where
  | one | two | three | four | five
  deriving DecidableEq, Repr, Inhabited

/-- What the reflector selector register can hold: 0, 1, 2 for the codes `A`, `B`, `C` (`10_state.md` R15). -/
inductive ReflectorSel where
  | a | b | c
  deriving DecidableEq, Repr, Inhabited

/-- A rotor slot of the bank: index 0 is the left rotor, 1 the middle, 2 the right (`00_scope.md` R2). -/
inductive Slot where
  | left | middle | right
  deriving DecidableEq, Repr, Inhabited

/-- One value for each rotor slot: the offsets `off[0..2]` or the selectors `rsel[0..2]`. -/
structure Bank (α : Type) where
  left   : α
  middle : α
  right  : α
  deriving DecidableEq, Repr, Inhabited

/-- The legal values of `STEPS_PER_CHAR`: 1 (`single`) and 2 (`double`) (`00_scope.md` R7, `41_stepper.md` R77). -/
inductive StepsPerChar where
  | single | double
  deriving DecidableEq, Repr, Inhabited

end Sys2Proof
end

