-- ==== Sys2Proof/Syntax.lean ====
section
/-! DEFINITION. The commands of the engine, one constructor for each row of spec/opcode_table.json
(`30_encoding.md` R52 to R56, R62). -/

namespace Sys2Proof

/-- The 7-character configuration record, `rec[0]` to `rec[6]` in the order they are sent (`30_encoding.md` R47). -/
structure ConfigRecord where
  reflector   : Byte
  rotorLeft   : Byte
  rotorMiddle : Byte
  rotorRight  : Byte
  startLeft   : Byte
  startMiddle : Byte
  startRight  : Byte
  deriving DecidableEq, Repr, Inhabited

/-- The commands. -/
inductive Instr where
  /-- CONSTRUCT, opcode 0x01, Format C: the record and the plugboard string without its terminator (R55, R63). -/
  | construct (r : ConfigRecord) (plug : List Byte)
  /-- ENCCHR, opcode 0x02, Format B (R54, R101). -/
  | encchr (c : Byte)
  /-- MSGCHR, opcode 0x03, Format B (R54, R102). -/
  | msgchr (c : Byte)
  /-- STEP, opcode 0x04, Format Z (R53, R81). -/
  | step
  /-- RDOFF, opcode 0x05, Format Z (R53, R108). -/
  | rdoff
  /-- ENCMSG, a pseudo-instruction with no opcode: one MSGCHR for each byte of the text (R62, R105). A decoder never
  sees it. -/
  | encmsg (text : List Byte)
  deriving DecidableEq, Repr, Inhabited

end Sys2Proof
end

