-- ==== Sys2Proof/WellFormed.lean ====
section
/-! DEFINITION. Which commands can be sent on the command port. -/

namespace Sys2Proof

/-- The one condition the framing puts on an operand: a plugboard string holds no byte 0x00, which would end it
(`30_encoding.md` R51, R55). Every value of every other operand byte has a meaning (R58). -/
def Instr.wellFormed : Instr → Bool
  | .construct _ plug => plug.all (fun b => b != 0x00)
  | .encchr _ => true
  | .msgchr _ => true
  | .step => true
  | .rdoff => true
  | .encmsg _ => true

end Sys2Proof
end

