-- ==== Sys2Proof/Decode.lean ====
section
/-! DEFINITION. The command decoder, total on any bytes, and the encoder (`30_encoding.md` R47, R52 to R58, R62). -/

namespace Sys2Proof

/-- What the decoder makes of the bytes it has: a complete command and the bytes after it, a complete illegal command
(an opcode byte outside 0x01..0x05, R58), or not yet a whole command (R57). -/
inductive Decoded where
  | command (i : Instr) (rest : List Byte)
  | illegal (op : Byte) (rest : List Byte)
  | incomplete
  deriving DecidableEq, Repr

/-- The plugboard string up to its terminator, the first 0x00, and the bytes after the terminator (R55). -/
def splitTerminator : List Byte → Option (List Byte × List Byte)
  | [] => none
  | b :: bs => if b = 0x00 then some ([], bs) else (splitTerminator bs).map (fun pr => (b :: pr.1, pr.2))

/-- Format C after the opcode byte: seven record bytes, whatever they are, then the plugboard string (R55). -/
def decodeConstruct : List Byte → Decoded
  | r0 :: r1 :: r2 :: r3 :: r4 :: r5 :: r6 :: bs =>
    match splitTerminator bs with
    | some pr => .command (.construct ⟨r0, r1, r2, r3, r4, r5, r6⟩ pr.1) pr.2
    | none => .incomplete
  | _ => .incomplete

/-- Format B after the opcode byte: ENCCHR (R54). -/
def decodeEncchr : List Byte → Decoded
  | [] => .incomplete
  | c :: bs => .command (.encchr c) bs

/-- Format B after the opcode byte: MSGCHR (R54). -/
def decodeMsgchr : List Byte → Decoded
  | [] => .incomplete
  | c :: bs => .command (.msgchr c) bs

/-- The first command of a byte stream, by the opcode map of R56 and the lengths of R57. -/
def decode : List Byte → Decoded
  | [] => .incomplete
  | op :: bs =>
    if op = 0x01 then decodeConstruct bs
    else if op = 0x02 then decodeEncchr bs
    else if op = 0x03 then decodeMsgchr bs
    else if op = 0x04 then .command .step bs
    else if op = 0x05 then .command .rdoff bs
    else .illegal op bs

/-- The seven bytes of a configuration record in the order they are sent (R47). -/
def recordBytes (r : ConfigRecord) : List Byte :=
  [r.reflector, r.rotorLeft, r.rotorMiddle, r.rotorRight, r.startLeft, r.startMiddle, r.startRight]

/-- The bytes sent for a command (R53 to R56, R62). -/
def encode : Instr → List Byte
  | .construct r plug => 0x01 :: (recordBytes r ++ plug ++ [0x00])
  | .encchr c => [0x02, c]
  | .msgchr c => [0x03, c]
  | .step => [0x04]
  | .rdoff => [0x05]
  | .encmsg text => text.flatMap (fun c => [0x03, c])

/-- The commands a line of a script stands for: the pseudo-instruction expands, a command is itself (R62, R105). -/
def expand : Instr → List Instr
  | .construct r plug => [.construct r plug]
  | .encchr c => [.encchr c]
  | .msgchr c => [.msgchr c]
  | .step => [.step]
  | .rdoff => [.rdoff]
  | .encmsg text => text.map .msgchr

/-- How many bytes a command takes on the port (R53, R54, R55). -/
def encodedLength : Instr → Nat
  | .construct _ plug => 9 + plug.length
  | .encchr _ => 2
  | .msgchr _ => 2
  | .step => 1
  | .rdoff => 1
  | .encmsg text => 2 * text.length

/-- The low `n` bytes of `w`, least significant byte first: the opcode table numbers the bits of a command from bit 0 of
its first byte, and the first byte is the first sent. -/
def lowBytes : Nat → Nat → List Byte
  | 0, _ => []
  | n + 1, w => BitVec.ofNat 8 w :: lowBytes n (w / 256)

/-- The bytes of a table word: `nbits` bits of `w` in whole bytes, and zeros above them (nine of them complete the
shortest CONSTRUCT, R55). -/
def tableBytes (nbits w : Nat) : List Byte :=
  lowBytes (nbits / 8) w ++ List.replicate 9 0x00

/-- The command the decoder reads from a table word. -/
def decodeTableWord (nbits w : Nat) : Option Instr :=
  match decode (tableBytes nbits w) with
  | .command i _ => some i
  | .illegal _ _ => none
  | .incomplete => none

/-- The bytes of the table word that belong to its first command: an illegal opcode byte is a command by itself (R57). -/
def tableCommandBytes (nbits w : Nat) : List Byte :=
  match decode (tableBytes nbits w) with
  | .command _ rest => (tableBytes nbits w).take ((tableBytes nbits w).length - rest.length)
  | .illegal op _ => [op]
  | .incomplete => tableBytes nbits w

end Sys2Proof
end

