-- ==== Sys2Proof/Config.lean ====
section
/-! DEFINITION. What an instantiation of the engine fixes (`00_scope.md` R7, R8) and the free values that stand for what
the spec leaves unspecified (`10_state.md` R27, R28). -/

namespace Sys2Proof

/-- The parameters a model takes as arguments (`00_scope.md` R7). They are constants, not state (`10_state.md` R22,
R27); the model carries them beside the state of the engine instance they belong to (log entry 1). -/
structure Params where
  /-- `STEPS_PER_CHAR` -/
  stepsPerChar : StepsPerChar
  /-- `ROTOR_WIRING[1..5]`, row `k - 1` for code `k` (`20_memory.md` R30) -/
  rotorWiring : Vector Table 5
  /-- `ROTOR_NOTCH[1..5]`, each held as its index (`20_memory.md` R31) -/
  rotorNotch : Vector Idx 5
  /-- `REFLECTOR_WIRING[A..C]`, row 0 for code `A` (`20_memory.md` R32) -/
  reflectorWiring : Vector Table 3
  deriving DecidableEq, Repr

/-- FREE VALUE (log entry 3): the offsets on the `n`-th occasion on which the spec leaves them unspecified. -/
opaque Config.freeOff (n : Nat) : Bank Idx

/-- FREE VALUE (log entry 3): the rotor selectors on the `n`-th such occasion. -/
opaque Config.freeRsel (n : Nat) : Bank RotorSel

/-- FREE VALUE (log entry 3): the reflector selector on the `n`-th such occasion. -/
opaque Config.freeRefsel (n : Nat) : ReflectorSel

/-- FREE VALUE (log entry 3): the plugboard table on the `n`-th such occasion. -/
opaque Config.freePb (n : Nat) : Table

end Sys2Proof
end

