-- ==== Sys2Proof/Machine/Tables.lean ====
section
/-! DEFINITION. The spec's default instantiation of the parameters (`20_memory.md` R35, R36, `00_scope.md` R7). The table
contents are a default value of a parameter, not a claim about the source (`91_not_in_source.md` N1); log entry 2. -/

namespace Sys2Proof.Machine

/-- Rotor 1: `EKMFLGDQVZNTOWYHXUSPAIBRCJ` (R35). -/
def rotorOne : Table :=
  #v[4, 10, 12, 5, 11, 6, 3, 16, 21, 25, 13, 19, 14, 22, 24, 7, 23, 20, 18, 15, 0, 8, 1, 17, 2, 9]

/-- Rotor 2: `AJDKSIRUXBLHWTMCQGZNPYFVOE` (R35). -/
def rotorTwo : Table :=
  #v[0, 9, 3, 10, 18, 8, 17, 20, 23, 1, 11, 7, 22, 19, 12, 2, 16, 6, 25, 13, 15, 24, 5, 21, 14, 4]

/-- Rotor 3: `BDFHJLCPRTXVZNYEIWGAKMUSQO` (R35). -/
def rotorThree : Table :=
  #v[1, 3, 5, 7, 9, 11, 2, 15, 17, 19, 23, 21, 25, 13, 24, 4, 8, 22, 6, 0, 10, 12, 20, 18, 16, 14]

/-- Rotor 4: `ESOVPZJAYQUIRHXLNFTGKDCMWB` (R35). -/
def rotorFour : Table :=
  #v[4, 18, 14, 21, 15, 25, 9, 0, 24, 16, 20, 8, 17, 7, 23, 11, 13, 5, 19, 6, 10, 3, 2, 12, 22, 1]

/-- Rotor 5: `VZBRGITYUPSDNHLXAWMJQOFECK` (R35). -/
def rotorFive : Table :=
  #v[21, 25, 1, 17, 6, 8, 19, 24, 20, 15, 18, 3, 13, 7, 11, 23, 0, 22, 12, 9, 16, 14, 5, 4, 2, 10]

/-- Reflector A: `EJMZALYXVBWFCRQUONTSPIKHGD` (R36). -/
def reflectorA : Table :=
  #v[4, 9, 12, 25, 0, 11, 24, 23, 21, 1, 22, 5, 2, 17, 16, 20, 14, 13, 19, 18, 15, 8, 10, 7, 6, 3]

/-- Reflector B: `YRUHQSLDPXNGOKMIEBFZCWVJAT` (R36). -/
def reflectorB : Table :=
  #v[24, 17, 20, 7, 16, 18, 11, 3, 15, 23, 13, 6, 14, 10, 12, 8, 4, 1, 5, 25, 2, 22, 21, 9, 0, 19]

/-- Reflector C: `FVPJIAOYEDRZXWGCTKUQSBNMHL` (R36). -/
def reflectorC : Table :=
  #v[5, 21, 15, 9, 8, 0, 14, 24, 4, 3, 17, 25, 23, 22, 6, 2, 19, 10, 20, 16, 18, 1, 13, 12, 7, 11]

/-- The notch letters `Q`, `E`, `V`, `J`, `Z` as indices (R31, R35). -/
def defaultNotches : Vector Idx 5 := #v[16, 4, 21, 9, 25]

/-- The default instantiation: the tables of R35 and R36 and `STEPS_PER_CHAR` = 2 for this hardware (R7, R77). -/
def defaultParams : Params where
  stepsPerChar := .double
  rotorWiring := #v[rotorOne, rotorTwo, rotorThree, rotorFour, rotorFive]
  rotorNotch := defaultNotches
  reflectorWiring := #v[reflectorA, reflectorB, reflectorC]

end Sys2Proof.Machine
end

