-- ==== Sys2Proof/Machine/State.lean ====
section
/-! DEFINITION. The state of one engine instance (`10_state.md`), the host's side of its ports (`30_encoding.md` R61), the
reasons a step can stop, and the state right after reset (R27). -/

namespace Sys2Proof.Machine

/-- The record of a READY engine (`10_state.md` R25). -/
structure EngineRecord where
  /-- `refsel` (R15) -/
  refsel : ReflectorSel
  /-- `rsel[0..2]` (R14) -/
  rsel : Bank RotorSel
  /-- `off[0..2]` (R13) -/
  off : Bank Idx
  /-- `PB[0..25]` (R16) -/
  pb : Table
  deriving DecidableEq, Repr

/-- What the host does at the ports, one transfer or event each (`30_encoding.md` R61, `70_reset_and_hazards.md` R129,
R142). -/
inductive PortEvent where
  /-- the host presents one byte on the command port -/
  | byte (b : Byte)
  /-- the host asserts `rst` -/
  | reset
  /-- the host is ready to take one byte from the output port -/
  | take
  deriving DecidableEq, Repr

/-- The faults the spec names (`60_exceptions.md` R113 to R118, R120). Raising one is a transition to the state FAULTED
(R119), so none of these ends a run of the model. -/
inductive FaultCause where
  | invalidReflector | invalidRotor | invalidStart | invalidPlugSymbol | notConfigured | badSymbol | illegalCommand
  deriving DecidableEq, Repr

/-- A fault about to be raised: `raise cause(info)` (`00_scope.md` R11). -/
structure Raised where
  cause : FaultCause
  info  : Byte
  deriving DecidableEq, Repr

/-- The state of one engine instance with the host's side of its ports. -/
structure State where
  /-- the instantiation parameters (`00_scope.md` R7): the MODEL's own field, changed by nothing (log entry 1) -/
  cfg : Params
  /-- `refsel`, `rsel`, `off`, `PB` -/
  eng : EngineRecord
  /-- `configured` (`10_state.md` R18) -/
  configured : Bool
  /-- `fault` (R19) -/
  fault : Bool
  /-- `fcause` (R19) -/
  fcause : BitVec 4
  /-- `finfo` (R19) -/
  finfo : Byte
  /-- the command assembler: the bytes of a command not yet complete (R21) -/
  asm : List Byte
  /-- the output stream: bytes emitted and not yet taken, oldest first (`30_encoding.md` R60) -/
  out : List Byte
  /-- what the host does next at the ports, first event first (`30_encoding.md` R61) -/
  port : List PortEvent
  /-- the output bytes the host took, oldest first (`70_reset_and_hazards.md` R141) -/
  taken : List Byte
  /-- the MODEL's own field: how many times registers became unspecified so far (log entry 3) -/
  unspec : Nat
  deriving DecidableEq, Repr

/-- Reasons the machine stops. -/
inductive Fault where
  /-- Raised by `exec` for a command in the state FAULTED, where no command is ever accepted
  (`60_exceptions.md` R119, R123; `93_implementation_defined.md` S9, stuck). `step` never answers it. Safe: the model
  stops where the hardware does nothing. -/
  | stopped (fcause : BitVec 4) (finfo : Byte)
  deriving DecidableEq, Repr

/-- Reasons the model gives no meaning. -/
inductive Refusal where
  /-- An instruction with no meaning yet; no arm of `exec` uses it. Safe. -/
  | notModelled (mnemonic : String)
  /-- Raised by ENCCHR, by MSGCHR with a letter and by ENCMSG when the wiring of a selected rotor is not a bijection: the
  inverse lookup has no meaning then and the instantiation is refused (`20_memory.md` R34,
  `93_implementation_defined.md` U5). Safe. -/
  | wiringNotBijective
  deriving DecidableEq, Repr

/-- Registers the spec leaves unspecified, on the `n`-th such occasion: free values (`10_state.md` R27, R28; log
entry 3). -/
def unspecifiedRecord (n : Nat) : EngineRecord where
  refsel := Config.freeRefsel n
  rsel := Config.freeRsel n
  off := Config.freeOff n
  pb := Config.freePb n

/-- The machine right after reset (`10_state.md` R27): UNCONFIGURED, flags clear, assembler and output empty, the
registers unspecified, and nothing yet presented or taken by the host. -/
def State.reset : State where
  cfg := defaultParams
  eng := unspecifiedRecord 0
  configured := false
  fault := false
  fcause := 0
  finfo := 0
  asm := []
  out := []
  port := []
  taken := []
  unspec := 1

end Sys2Proof.Machine
end

