-- ==== Sys2Proof/Machine/Flags.lean ====
section
/-! DEFINITION. The status flags: cause codes, lifecycle states, and the status outputs of the ports
(`10_state.md` R18, R19, R24; `60_exceptions.md` R121; `30_encoding.md` R61). -/

namespace Sys2Proof.Machine

/-- The cause codes (`60_exceptions.md` R121). -/
def causeCode : FaultCause → BitVec 4
  | .invalidReflector => 1
  | .invalidRotor => 2
  | .invalidStart => 3
  | .invalidPlugSymbol => 4
  | .notConfigured => 5
  | .badSymbol => 6
  | .illegalCommand => 7

/-- The lifecycle states (`10_state.md` R24). -/
inductive Lifecycle where
  | unconfigured | ready | faulted
  deriving DecidableEq, Repr

/-- The lifecycle state as a function of the two flags; `configured` and `fault` are never both 1 (R24). -/
def lifecycleOf (s : State) : Lifecycle :=
  if s.fault then .faulted else if s.configured then .ready else .unconfigured

/-- The output signal `cmd_ready`: held 0 in FAULTED (R61). Stalling of a working engine is timing and left out. -/
def cmdReady (s : State) : Bool := !s.fault

/-- The output signal `out_valid`: the engine has a byte to offer (R61). -/
def outValid (s : State) : Bool := !s.out.isEmpty

/-- The output signal `out_byte`; the spec gives it no value while `out_valid` is 0
(`93_implementation_defined.md` S4). -/
def outByte (s : State) : Option Byte := s.out.head?

end Sys2Proof.Machine
end

