-- ==== Sys2Proof/Machine/Operands.lean ====
section
/-! DEFINITION. Character codes and classes, the conversion of operand bytes to indices and selectors, and arithmetic
modulo 26 (`30_encoding.md` R45 to R50, R59; `00_scope.md` R9, R10). -/

namespace Sys2Proof.Machine

/-- `isUpper(c)` (R46). -/
def isUpper (c : Byte) : Bool := decide (0x41 ≤ c.toNat) && decide (c.toNat ≤ 0x5A)

/-- `isLower(c)` (R46). -/
def isLower (c : Byte) : Bool := decide (0x61 ≤ c.toNat) && decide (c.toNat ≤ 0x7A)

/-- `isAlpha(c)` (R46). -/
def isAlpha (c : Byte) : Bool := isUpper c || isLower c

/-- `toUpper(c)` (R46). -/
def toUpper (c : Byte) : Byte := if isLower c then c - 0x20 else c

/-- The comma that separates plugboard tokens (R45, R51). -/
def comma : Byte := 0x2C

/-- `idx(c) = c - 0x41` for an uppercase letter code, and no value for any other byte (R45, R59). -/
def letterIdx (c : Byte) : Option Idx :=
  if h : 0x41 ≤ c.toNat ∧ c.toNat ≤ 0x5A then some ⟨c.toNat - 0x41, by omega⟩ else none

/-- `let(i) = 0x41 + i`, the letter code of an index (R45). -/
def letterOf (i : Idx) : Byte := BitVec.ofNat 8 (0x41 + i.val)

/-- `(x + o) mod 26` (`00_scope.md` R10). -/
def addMod (x o : Idx) : Idx := ⟨(x.val + o.val) % 26, Nat.mod_lt _ (by decide)⟩

/-- `(x - o) mod 26`, the non-negative remainder: `x - o` when that is non-negative, else `x - o + 26`
(`00_scope.md` R10). -/
def subMod (x o : Idx) : Idx := ⟨(x.val + 26 - o.val) % 26, Nat.mod_lt _ (by decide)⟩

/-- The reflector selector of a reflector code byte: `A`, `B`, `C` (R48). -/
def reflectorOfCode (c : Byte) : Option ReflectorSel :=
  if c = 0x41 then some .a else if c = 0x42 then some .b else if c = 0x43 then some .c else none

/-- The rotor selector of a rotor code byte: `1` to `5` (R49). -/
def rotorOfCode (c : Byte) : Option RotorSel :=
  if c = 0x31 then some .one else if c = 0x32 then some .two else if c = 0x33 then some .three
  else if c = 0x34 then some .four else if c = 0x35 then some .five else none

/-- The value held by a rotor selector register, 1 to 5 (`10_state.md` R14). -/
def rotorValue : RotorSel → Nat
  | .one => 1 | .two => 2 | .three => 3 | .four => 4 | .five => 5

/-- The value held by the reflector selector register, 0 to 2 (`10_state.md` R15). -/
def reflectorValue : ReflectorSel → Nat
  | .a => 0 | .b => 1 | .c => 2

/-- The row of the rotor table that a rotor code selects: code `k` is row `k - 1` of the vectors in `Params`. -/
def rotorRow : RotorSel → Fin 5
  | .one => 0 | .two => 1 | .three => 2 | .four => 3 | .five => 4

/-- The row of the reflector table that the reflector selector selects. -/
def reflectorRow : ReflectorSel → Fin 3
  | .a => 0 | .b => 1 | .c => 2

/-- The value of a slot: index 0 left, 1 middle, 2 right (`00_scope.md` R2). -/
def bankAt {α : Type} (b : Bank α) : Slot → α
  | .left => b.left
  | .middle => b.middle
  | .right => b.right

/-- How many times STEP1 runs per character (`41_stepper.md` R77). -/
def stepCount : StepsPerChar → Nat
  | .single => 1
  | .double => 2

end Sys2Proof.Machine
end

