-- ==== Sys2Proof/Machine/Ops.lean ====
section
/-! DEFINITION. The named operations over the state: table reads and the plugboard write, emitting, fault entry, the
reset event (the only way back from a fault), and the acceptance checks shared by the commands. -/

namespace Sys2Proof.Machine

/-- `ROTW[k][p]`: one entry of a rotor wiring (`20_memory.md` R30). -/
def readRotw (P : Params) (k : RotorSel) (p : Idx) : Idx := (P.rotorWiring[rotorRow k])[p]

/-- `NOTCH[k]` as an index (`20_memory.md` R31). -/
def readNotch (P : Params) (k : RotorSel) : Idx := P.rotorNotch[rotorRow k]

/-- `REFW[r][p]`: one entry of a reflector wiring (`20_memory.md` R32). -/
def readRefw (P : Params) (r : ReflectorSel) (p : Idx) : Idx := (P.reflectorWiring[reflectorRow r])[p]

/-- `PB[p]`: one entry of a plugboard table (`20_memory.md` R33). -/
def readPb (pb : Table) (p : Idx) : Idx := pb[p]

/-- `PB[p] <- v` (`00_scope.md` R11). -/
def writePb (pb : Table) (p v : Idx) : Table := pb.set p.val v

/-- `emit(c)`: append one byte to the output stream (`30_encoding.md` R60). -/
def emit (c : Byte) (s : State) : State := { s with out := s.out ++ [c] }

/-- FAULT ENTRY, `raise F(info)` (`60_exceptions.md` R119): the flags are set, `configured` is cleared, nothing is
emitted, and the registers of the engine become unspecified (`10_state.md` R28). Nothing is saved and no handler
runs. -/
def raise (f : FaultCause) (info : Byte) (s : State) : State :=
  { s with
    fault := true
    fcause := causeCode f
    finfo := info
    configured := false
    eng := unspecifiedRecord s.unspec
    unspec := s.unspec + 1 }

/-- THE RESET EVENT (`70_reset_and_hazards.md` R129), the only exit from FAULTED (`60_exceptions.md` R123): flags clear,
assembler and untaken output discarded, registers unspecified. The parameters and the host's side of the ports are not
the engine's to reset. -/
def resetEvent (s : State) : State :=
  { s with
    configured := false
    fault := false
    fcause := 0
    finfo := 0
    asm := []
    out := []
    eng := unspecifiedRecord s.unspec
    unspec := s.unspec + 1 }

/-- A command is accepted in UNCONFIGURED and READY only; in FAULTED it is stuck
(`60_exceptions.md` R123, R126; `93_implementation_defined.md` S9). -/
def whenAccepting (s : State) (k : Host.Outcome State Fault Refusal) : Host.Outcome State Fault Refusal :=
  if s.fault then .fault (.stopped s.fcause s.finfo) else k

/-- The first check of every command but CONSTRUCT: `if configured = 0: raise NotConfigured(op)`
(`60_exceptions.md` R117). -/
def whenConfigured (op : Byte) (s : State) (k : Host.Outcome State Fault Refusal) :
    Host.Outcome State Fault Refusal :=
  whenAccepting s (if s.configured then k else .next (raise .notConfigured op s))

end Sys2Proof.Machine
end

