-- ==== Sys2Proof/Machine/Construct.lean ====
section
/-! DEFINITION. Configuration assembly and the construction half of `plugboard_mapper`: CONSTRUCT (`40_construct.md`). -/

namespace Sys2Proof.Machine

/-- `decode_reflector` (R64). -/
def decodeReflector (c : Byte) : Except Raised ReflectorSel :=
  match reflectorOfCode c with
  | some r => .ok r
  | none => .error ⟨.invalidReflector, c⟩

/-- One code of `decode_rotors` (R65). -/
def decodeRotor (c : Byte) : Except Raised RotorSel :=
  match rotorOfCode c with
  | some k => .ok k
  | none => .error ⟨.invalidRotor, c⟩

/-- `decode_rotors` (R65): left, middle, right in that order. -/
def decodeRotors (c0 c1 c2 : Byte) : Except Raised (Bank RotorSel) := do
  let left ← decodeRotor c0
  let middle ← decodeRotor c1
  let right ← decodeRotor c2
  return ⟨left, middle, right⟩

/-- One letter of `decode_starts` (R66). -/
def decodeStart (c : Byte) : Except Raised Idx :=
  match letterIdx c with
  | some o => .ok o
  | none => .error ⟨.invalidStart, c⟩

/-- `decode_starts` (R66): left, middle, right in that order. -/
def decodeStarts (c0 c1 c2 : Byte) : Except Raised (Bank Idx) := do
  let left ← decodeStart c0
  let middle ← decodeStart c1
  let right ← decodeStart c2
  return ⟨left, middle, right⟩

/-- The tokens of a plugboard string: cut at every comma, empty pieces kept, in order
(`30_encoding.md` R51, `40_construct.md` R68). -/
def tokens : List Byte → List (List Byte)
  | [] => [[]]
  | c :: cs =>
    if c = comma then [] :: tokens cs
    else
      match tokens cs with
      | [] => [[c]]
      | t :: ts => (c :: t) :: ts

/-- The table in which every letter maps to itself (R67). -/
def identityTable : Table := Vector.ofFn id

/-- The two reciprocal writes of a token of length 2, first letter's entry first; a byte that is not an uppercase letter
faults, the first byte checked first (R69, R71). -/
def installPair (pb : Table) (t0 t1 : Byte) : Except Raised Table :=
  match letterIdx t0 with
  | none => .error ⟨.invalidPlugSymbol, t0⟩
  | some a =>
    match letterIdx t1 with
    | none => .error ⟨.invalidPlugSymbol, t1⟩
    | some b => .ok (writePb (writePb pb a b) b a)

/-- `finish(t)` (R69): a token whose length is not 2 is dropped and never inspected. -/
def finishToken (pb : Table) : List Byte → Except Raised Table
  | [t0, t1] => installPair pb t0 t1
  | _ => .ok pb

/-- Tokens finished from first to last; the first offending token raises its fault (R67, R116). -/
def finishTokens : Table → List (List Byte) → Except Raised Table
  | pb, [] => .ok pb
  | pb, t :: ts =>
    match finishToken pb t with
    | .ok pb' => finishTokens pb' ts
    | .error e => .error e

/-- `build_plugboard` (R67): from the identity table, token by token. -/
def buildPlugboard (plug : List Byte) : Except Raised Table := finishTokens identityTable (tokens plug)

/-- What the streaming tokenizer keeps: the table so far, the length of the current token saturating at 3, and its first
two bytes (R68, `10_state.md` R21). -/
structure Tokenizer where
  pb  : Table
  len : Nat
  t0  : Byte
  t1  : Byte
  deriving DecidableEq, Repr

/-- Finishing the current token in the streaming form (R68). -/
def streamFinish (k : Tokenizer) : Except Raised Tokenizer :=
  if k.len = 2 then
    match installPair k.pb k.t0 k.t1 with
    | .ok pb => .ok { k with pb := pb, len := 0 }
    | .error e => .error e
  else .ok { k with len := 0 }

/-- One byte of the streaming form (R68). -/
def streamByte (k : Tokenizer) (c : Byte) : Except Raised Tokenizer :=
  if c = comma then streamFinish k
  else
    .ok { k with
      t0 := if k.len = 0 then c else k.t0
      t1 := if k.len = 1 then c else k.t1
      len := min (k.len + 1) 3 }

/-- The streaming form over a string, with the end of the string finishing the last token (R68). -/
def streamString : Tokenizer → List Byte → Except Raised Tokenizer
  | k, [] => streamFinish k
  | k, c :: cs =>
    match streamByte k c with
    | .ok k' => streamString k' cs
    | .error e => .error e

/-- The plugboard built by the streaming tokenizer (R68). `exec` uses `buildPlugboard`; that the two agree is a claim. -/
def streamPlugboard (plug : List Byte) : Except Raised Table :=
  (streamString ⟨identityTable, 0, 0, 0⟩ plug).map (fun k => k.pb)

/-- All the checks of CONSTRUCT in the order of its pseudocode, before any write (R63, R72, `60_exceptions.md` R122). -/
def checkedRecord (r : ConfigRecord) (plug : List Byte) : Except Raised EngineRecord := do
  let refsel ← decodeReflector r.reflector
  let rsel ← decodeRotors r.rotorLeft r.rotorMiddle r.rotorRight
  let off ← decodeStarts r.startLeft r.startMiddle r.startRight
  let pb ← buildPlugboard plug
  return ⟨refsel, rsel, off, pb⟩

/-- `commit` (R72): the whole record at once, and `configured <- 1`. -/
def commit (e : EngineRecord) (s : State) : State := { s with eng := e, configured := true }

/-- CONSTRUCT (R63): accepted in UNCONFIGURED and READY (R73). -/
def execConstruct (r : ConfigRecord) (plug : List Byte) (s : State) : Host.Outcome State Fault Refusal :=
  whenAccepting s
    (match checkedRecord r plug with
     | .ok e => .next (commit e s)
     | .error f => .next (raise f.cause f.info s))

end Sys2Proof.Machine
end

