-- ==== Sys2Proof/Machine/Pipeline.lean ====
section
/-! DEFINITION. `permutation_pipeline` and the plugboard lookup: PLUG, FWD1, FWD, REFL, BWD1, BWD, PATH
(`42_pipeline.md`), and the inverse lookup they use (`20_memory.md` R34). All are pure functions of the parameters and
the engine record (R85). -/

namespace Sys2Proof.Machine

/-- The bijection premise on a table: every symbol occurs exactly once (`00_scope.md` R8). -/
def isPermutation (w : Table) : Bool := (List.finRange 26).all (fun s => w.toList.count s == 1)

/-- The wiring `W[i]` of the rotor in slot `i` (`00_scope.md` R11). -/
def slotWiring (P : Params) (e : EngineRecord) (i : Slot) : Table := P.rotorWiring[rotorRow (bankAt e.rsel i)]

/-- The position that stores the symbol `s` in the table `w`. -/
def positionOf (w : Table) (s : Idx) : Option Idx := (List.finRange 26).find? (fun p => w[p] == s)

/-- `Winv`: the position that stores a symbol, defined only under the bijection premise (`20_memory.md` R34). -/
def inverseLookup (w : Table) (s : Idx) : Option Idx := if isPermutation w then positionOf w s else none

/-- PLUG (R86, R92). -/
def plugSwap (e : EngineRecord) (l : Idx) : Idx := readPb e.pb l

/-- FWD1 (R87). -/
def fwd1 (P : Params) (e : EngineRecord) (i : Slot) (l : Idx) : Idx :=
  subMod (readRotw P (bankAt e.rsel i) (addMod l (bankAt e.off i))) (bankAt e.off i)

/-- FWD (R88): right, middle, left. -/
def fwd (P : Params) (e : EngineRecord) (l : Idx) : Idx :=
  fwd1 P e .left (fwd1 P e .middle (fwd1 P e .right l))

/-- REFL (R89): no offset is applied. -/
def reflect (P : Params) (e : EngineRecord) (l : Idx) : Idx := readRefw P e.refsel l

/-- BWD1 (R90): the offset is subtracted from the position found. -/
def bwd1 (P : Params) (e : EngineRecord) (i : Slot) (l : Idx) : Option Idx :=
  (inverseLookup (slotWiring P e i) (addMod l (bankAt e.off i))).map (fun p => subMod p (bankAt e.off i))

/-- BWD (R91): left, middle, right. -/
def bwd (P : Params) (e : EngineRecord) (l : Idx) : Option Idx :=
  ((bwd1 P e .left l).bind (bwd1 P e .middle)).bind (bwd1 P e .right)

/-- PATH (R85): plugboard, forward, reflector, backward, plugboard. It has a value exactly when the inverse lookups have
one (R93). -/
def path (P : Params) (e : EngineRecord) (l : Idx) : Option Idx :=
  (bwd P e (reflect P e (fwd P e (plugSwap e l)))).map (plugSwap e)

end Sys2Proof.Machine
end

