-- ==== Sys2Proof/Machine/Stepper.lean ====
section
/-! DEFINITION. `rotor_stepper_fsm`: STEP1, STEPCHAR and the command STEP (`41_stepper.md`). -/

namespace Sys2Proof.Machine

/-- STEP1 (R76): one application of the stepping rule, with the notch values of the middle and right rotors. Both
comparisons look at the offset after its advance, the second only when the first carried. -/
def stepOnce (nMiddle nRight : Idx) (o : Bank Idx) : Bank Idx :=
  let right := addMod o.right 1
  if right = nRight then
    let middle := addMod o.middle 1
    if middle = nMiddle then ⟨addMod o.left 1, middle, right⟩
    else ⟨o.left, middle, right⟩
  else ⟨o.left, o.middle, right⟩

/-- STEP1 repeated: the comparisons are evaluated afresh each time (R77). -/
def stepTimes (nMiddle nRight : Idx) : Nat → Bank Idx → Bank Idx
  | 0, o => o
  | k + 1, o => stepTimes nMiddle nRight k (stepOnce nMiddle nRight o)

/-- The offsets after one STEPCHAR of an engine with record `e` (R75, R77). -/
def steppedOffsets (P : Params) (e : EngineRecord) : Bank Idx :=
  stepTimes (readNotch P e.rsel.middle) (readNotch P e.rsel.right) (stepCount P.stepsPerChar) e.off

/-- STEPCHAR (R77): only the offsets change. -/
def stepChar (s : State) : State := { s with eng := { s.eng with off := steppedOffsets s.cfg s.eng } }

/-- STEP (R81). -/
def execStep (s : State) : Host.Outcome State Fault Refusal :=
  whenConfigured 0x04 s (.next (stepChar s))

end Sys2Proof.Machine
end

