-- ==== Sys2Proof/Machine/Encrypt.lean ====
section
/-! DEFINITION. Character and message encryption and the offset read-out: ENCCHR, MSGCHR, ENCMSG, RDOFF
(`43_encrypt.md`). -/

namespace Sys2Proof.Machine

/-- STEPCHAR, then emit the letter that PATH gives at the new offsets (R101, R102); without the bijection premise PATH
has no meaning and the model refuses (`20_memory.md` R34). -/
def encipher (l : Idx) (s : State) : Host.Outcome State Fault Refusal :=
  match path s.cfg (stepChar s).eng l with
  | some y => .next (emit (letterOf y) (stepChar s))
  | none => .refused .wiringNotBijective

/-- ENCCHR (R101). -/
def execEncchr (c : Byte) (s : State) : Host.Outcome State Fault Refusal :=
  whenConfigured 0x02 s
    (match letterIdx c with
     | none => .next (raise .badSymbol c s)
     | some l => encipher l s)

/-- One byte of a message (R102 to R104): a byte that is not a letter is dropped, a letter is folded to uppercase. -/
def messageByte (c : Byte) (s : State) : Host.Outcome State Fault Refusal :=
  whenConfigured 0x03 s
    (if isAlpha c then
      match letterIdx (toUpper c) with
      | some l => encipher l s
      | none => .next s
     else .next s)

/-- MSGCHR (R102). -/
def execMsgchr (c : Byte) (s : State) : Host.Outcome State Fault Refusal := messageByte c s

/-- The bytes of a message in order; after a fault the rest are not accepted (R105). -/
def messageBytes : List Byte → State → Host.Outcome State Fault Refusal
  | [], s => .next s
  | c :: cs, s =>
    match messageByte c s with
    | .next t => if t.fault then .next t else messageBytes cs t
    | .fault r => .fault r
    | .refused r => .refused r

/-- ENCMSG (R105): the command sequence of one MSGCHR for each byte of the text. -/
def execEncmsg (text : List Byte) (s : State) : Host.Outcome State Fault Refusal := messageBytes text s

/-- RDOFF (R108): left, middle, right. -/
def execRdoff (s : State) : Host.Outcome State Fault Refusal :=
  whenConfigured 0x05 s
    (.next (emit (letterOf s.eng.off.right) (emit (letterOf s.eng.off.middle) (emit (letterOf s.eng.off.left) s))))

end Sys2Proof.Machine
end

