-- ==== Sys2Proof/Machine/Dispatch.lean ====
section
/-! DEFINITION. The dispatch of a command to its meaning, one arm for each constructor of Instr. -/

namespace Sys2Proof.Machine

/-- The meaning of one accepted command. -/
def exec (i : Instr) (s : State) : Host.Outcome State Fault Refusal :=
  match i with
  | .construct r plug => Sys2Proof.Machine.execConstruct r plug s
  | .encchr c => Sys2Proof.Machine.execEncchr c s
  | .msgchr c => Sys2Proof.Machine.execMsgchr c s
  | .step => Sys2Proof.Machine.execStep s
  | .rdoff => Sys2Proof.Machine.execRdoff s
  | .encmsg text => Sys2Proof.Machine.execEncmsg text s

end Sys2Proof.Machine
end

