-- ==== Sys2Proof/Machine/Ports.lean ====
section
/-! DEFINITION. The ports: what one event of the host's does to the engine, and how command bytes are gathered into
commands (`30_encoding.md` R57, R61; `70_reset_and_hazards.md` R129, R141, R142). -/

namespace Sys2Proof.Machine

/-- The command bytes the host presents before its next other event. -/
def leadingBytes : List PortEvent → List Byte
  | .byte b :: es => b :: leadingBytes es
  | _ => []

/-- The host's events from the first that is not a command byte on. -/
def afterBytes : List PortEvent → List PortEvent
  | .byte _ :: es => afterBytes es
  | es => es

/-- A transfer on the output port: the host takes the oldest byte; with no byte to offer there is no transfer (R61). -/
def takeOutput (s : State) : State :=
  match s.out with
  | [] => s
  | c :: cs => { s with out := cs, taken := s.taken ++ [c] }

/-- Command bytes presented to an accepting engine: with the bytes already in the assembler they are a whole command,
which then takes all its effect, or an illegal opcode byte (R58, R120), or not yet a command, and then they only wait in
the assembler (R57). -/
def acceptBytes (s : State) : Host.Outcome State Fault Refusal :=
  match decode (s.asm ++ leadingBytes s.port) with
  | .command i more => exec i { s with asm := [], port := more.map .byte ++ afterBytes s.port }
  | .illegal op more =>
    .next (raise .illegalCommand op { s with asm := [], port := more.map .byte ++ afterBytes s.port })
  | .incomplete => .next { s with asm := s.asm ++ leadingBytes s.port, port := afterBytes s.port }

/-- One step of an engine at its ports. With nothing presented it holds its state (`60_exceptions.md` R127). In FAULTED a
presented command byte is never accepted (R123, `70_reset_and_hazards.md` R141); reset and the taking of output go on
(R119). -/
def portStep (s : State) : Host.Outcome State Fault Refusal :=
  match s.port with
  | [] => .next s
  | .reset :: rest => .next (resetEvent { s with port := rest })
  | .take :: rest => .next (takeOutput { s with port := rest })
  | .byte _ :: rest => if s.fault then .next { s with port := rest } else acceptBytes s

/-- The state with the bytes `bs` presented next, before everything the host does later, and no command half received. -/
def presentNext (bs : List Byte) (s : State) : State := { s with asm := [], port := bs.map .byte ++ s.port }

end Sys2Proof.Machine
end

