-- ==== Sys2Proof/Machine/Step.lean ====
section
/-! DEFINITION. One step of the machine, and the placing of a table word where the step fetches. -/

namespace Sys2Proof.Machine

/-- One step: `state × input → state`, or a stop (`60_exceptions.md` R128). -/
def step (s : State) : Host.Outcome State Fault Refusal := portStep s

/-- The state in which the command of a table word is what the host presents next (log entry 6). -/
def State.withFetchWord (s : State) (nbits w : Nat) : State := presentNext (tableCommandBytes nbits w) s

end Sys2Proof.Machine
end

