-- ==== Sys2Proof/Machine/Script.lean ====
section
/-! DEFINITION. Command scripts: what each line makes the host do at the ports, and running a script
(`30_encoding.md` R62). -/

namespace Sys2Proof.Machine

/-- One line of a script: a command or pseudo-instruction, RESET, or EXPECT with its text (R62). R62's table lists no line
that is a bare byte and leaves open whether one is a line; scripts of `95_test_vectors.md` V17 use one (rows 6, 7, 19), and
the model takes it as one: DEDUCED, log entry 16. -/
inductive ScriptLine where
  | command (i : Instr)
  /-- a bare byte `0xHH`, sent as it is (log entry 16) -/
  | byte (b : Byte)
  | reset
  | expect (text : List Byte)
  deriving DecidableEq, Repr

/-- What the host presents for a line: the bytes sent, the reset request, or as many takings as EXPECT names bytes
(R62; a bare byte is sent as it is, log entry 16). -/
def lineEvents : ScriptLine → List PortEvent
  | .command i => (encode i).map .byte
  | .byte b => [.byte b]
  | .reset => [.reset]
  | .expect text => List.replicate text.length .take

/-- As many steps as `n`, each at the ports; a step that has nothing to do changes nothing. -/
def stepMany : Nat → State → Host.Outcome State Fault Refusal
  | 0, s => .next s
  | n + 1, s =>
    match step s with
    | .next t => stepMany n t
    | .fault r => .fault r
    | .refused r => .refused r

/-- One line run to its end. EXPECT fails unless the output since the previous EXPECT or reset is exactly its text
(R62); a stop of the machine fails too. -/
def runLine (l : ScriptLine) (s : State) : Option State :=
  match l with
  | .expect text => if s.out = text then runEvents (lineEvents (.expect text)) s else none
  | .command i => runEvents (lineEvents (.command i)) s
  | .byte b => runEvents (lineEvents (.byte b)) s
  | .reset => runEvents (lineEvents .reset) s
where
  /-- Present events after those pending and take a step for each event there is. -/
  runEvents (es : List PortEvent) (s : State) : Option State :=
    match stepMany (s.port ++ es).length { s with port := s.port ++ es } with
    | .next t => some t
    | .fault _ => none
    | .refused _ => none

/-- A script run line by line. -/
def runScript : List ScriptLine → State → Option State
  | [], s => some s
  | l :: ls, s => (runLine l s).bind (runScript ls)

end Sys2Proof.Machine
end

