-- ==== Sys2Proof/Safety.lean ====
section
/-! DEFINITION. What the claims call a legal state, a premise met, and a run that ends well (`10_state.md` R23, R24;
`00_scope.md` R8; `70_reset_and_hazards.md` R141). -/

namespace Sys2Proof.Machine

/-- What holds in every state of a run: the flag combinations of `10_state.md` R19 and R24, the cause codes of
`60_exceptions.md` R121, an assembler that holds no whole command (R21, R57) and is empty in FAULTED, and output that is
letters only (`43_encrypt.md` R106). The ranges of R23 are types. -/
abbrev State.Inv (s : State) : Prop :=
  (s.fault = true → s.configured = false) ∧
  (s.fault = false → s.fcause = 0 ∧ s.finfo = 0) ∧
  (s.fault = true → 1 ≤ s.fcause.toNat ∧ s.fcause.toNat ≤ 7) ∧
  decode s.asm = .incomplete ∧
  (s.fault = true → s.asm = []) ∧
  (∀ c ∈ s.out, isUpper c = true) ∧
  (∀ c ∈ s.taken, isUpper c = true)

/-- The bijection premise on every rotor table (`00_scope.md` R8). -/
abbrev rotorsBijective (P : Params) : Prop := ∀ k : Fin 5, isPermutation P.rotorWiring[k] = true

/-- A table that applied twice gives the original symbol. -/
abbrev Involutive (w : Table) : Prop := ∀ p : Idx, w[w[p]] = p

/-- The involution expectation on every reflector table (`00_scope.md` R8). -/
abbrev reflectorsInvolutive (P : Params) : Prop :=
  ∀ r : Fin 3, Involutive P.reflectorWiring[r]

/-- The no-fixed-point expectation on every reflector table (`00_scope.md` R8). -/
abbrev reflectorsFixFree (P : Params) : Prop := ∀ r : Fin 3, ∀ p : Idx, (P.reflectorWiring[r])[p] ≠ p

/-- All the constraints of `00_scope.md` R8 on the table parameters. -/
abbrev paramsLegal (P : Params) : Prop :=
  rotorsBijective P ∧ (∀ r : Fin 3, isPermutation P.reflectorWiring[r] = true) ∧
  reflectorsInvolutive P ∧ reflectorsFixFree P

/-- READY: the lifecycle state in which the commands do their work (`10_state.md` R24). -/
abbrev State.Ready (s : State) : Prop := s.fault = false ∧ s.configured = true

/-- The bijection premise for the three rotors an engine uses: each `Winv[i]` is defined (`42_pipeline.md` R93). -/
abbrev slotsBijective (P : Params) (e : EngineRecord) : Prop := ∀ i : Slot, isPermutation (slotWiring P e i) = true

/-- What `rsel[i]` and `off[i]` hold for a slot, field by field (`10_state.md` R13, R14). -/
abbrev slotHolds (e : EngineRecord) (i : Slot) (sel : RotorSel) (o : Idx) : Prop :=
  match i with
  | .left => sel = e.rsel.left ∧ o = e.off.left
  | .middle => sel = e.rsel.middle ∧ o = e.off.middle
  | .right => sel = e.rsel.right ∧ o = e.off.right

/-- The premises of reciprocity for one engine: its rotors bijective, its plugboard and its reflector involutive
(`42_pipeline.md` R97). -/
abbrev reciprocal (P : Params) (e : EngineRecord) : Prop :=
  slotsBijective P e ∧ Involutive e.pb ∧ Involutive (P.reflectorWiring[reflectorRow e.refsel])

/-- The engine record after one STEPCHAR (`41_stepper.md` R77). -/
def steppedRecord (P : Params) (e : EngineRecord) : EngineRecord := { e with off := steppedOffsets P e }

/-- A fault has been entered from `s` with this cause code and info byte, and nothing else happened that a host can see
(`60_exceptions.md` R119, R125). -/
abbrev Faulted (code : BitVec 4) (info : Byte) (s t : State) : Prop :=
  t.fault = true ∧ t.fcause = code ∧ t.finfo = info ∧ t.configured = false ∧
  t.out = s.out ∧ t.cfg = s.cfg ∧ t.asm = s.asm ∧ t.port = s.port ∧ t.taken = s.taken

/-- A byte within a range of codes. -/
def byteIn (lo hi : Nat) (c : Byte) : Bool := decide (lo ≤ c.toNat) && decide (c.toNat ≤ hi)

/-- The bytes of the plugboard tokens of length exactly 2, in order (`40_construct.md` R69, R71). -/
def pairBytes (plug : List Byte) : List Byte := ((tokens plug).filter (fun t => t.length == 2)).flatten

/-- The checks of CONSTRUCT in the order of `60_exceptions.md` R122, each with its cause code, the byte checked and
whether it passes (R113 to R116). -/
def constructChecks (r : ConfigRecord) (plug : List Byte) : List (BitVec 4 × Byte × Bool) :=
  [(1, r.reflector, byteIn 0x41 0x43 r.reflector),
   (2, r.rotorLeft, byteIn 0x31 0x35 r.rotorLeft),
   (2, r.rotorMiddle, byteIn 0x31 0x35 r.rotorMiddle),
   (2, r.rotorRight, byteIn 0x31 0x35 r.rotorRight),
   (3, r.startLeft, byteIn 0x41 0x5A r.startLeft),
   (3, r.startMiddle, byteIn 0x41 0x5A r.startMiddle),
   (3, r.startRight, byteIn 0x41 0x5A r.startRight)] ++
  (pairBytes plug).map (fun c => (4, c, byteIn 0x41 0x5A c))

/-- The cause code and info byte of the first check of CONSTRUCT that fails. -/
def firstFault (r : ConfigRecord) (plug : List Byte) : Option (BitVec 4 × Byte) :=
  ((constructChecks r plug).find? (fun k => !k.2.2)).map (fun k => (k.1, k.2.1))

/-- The letter pairs of the well-formed tokens, in order (`30_encoding.md` R51). -/
def letterPairs (plug : List Byte) : List (Idx × Idx) :=
  (tokens plug).filterMap (fun t =>
    match t with
    | [a, b] =>
      match letterIdx a, letterIdx b with
      | some i, some j => some (i, j)
      | _, _ => none
    | _ => none)

/-- The pairs of two different letters: the ones that move a letter (`40_construct.md` R74). -/
def movingPairs (plug : List Byte) : List (Idx × Idx) := (letterPairs plug).filter (fun ab => ab.1 != ab.2)

/-- The letters of the pairs, each as often as it is named. -/
def pairLetters (pairs : List (Idx × Idx)) : List Idx := pairs.flatMap (fun ab => [ab.1, ab.2])

/-- The expectation that no letter is in two pairs; a token that pairs a letter with itself, which moves nothing, may
stand beside the others as long as its letter is in none of them (`40_construct.md` R70, R74). -/
abbrev lettersInOnePair (plug : List Byte) : Prop :=
  (pairLetters (movingPairs plug)).Nodup ∧
  ∀ ab ∈ letterPairs plug, ab.1 = ab.2 → ab.1 ∉ pairLetters (movingPairs plug)

/-- The table writes of the pairs, in order: A to B, then B to A (`40_construct.md` R69). -/
def pairWrites (pairs : List (Idx × Idx)) : List (Idx × Idx) := pairs.flatMap (fun ab => [(ab.1, ab.2), (ab.2, ab.1)])

/-- What entry `p` holds after the writes: the value of the last write to it, or itself (`40_construct.md` R67, R70). -/
def lastWrite (writes : List (Idx × Idx)) (p : Idx) : Idx :=
  match writes.reverse.find? (fun w => w.1 == p) with
  | some w => w.2
  | none => p

/-- The opcode byte of the commands that need a configured engine; ENCMSG begins with MSGCHR's (`30_encoding.md` R56,
`60_exceptions.md` R117). -/
def neededOpcode : Instr → Option Byte
  | .construct _ _ => none
  | .encchr _ => some 0x02
  | .msgchr _ => some 0x03
  | .step => some 0x04
  | .rdoff => some 0x05
  | .encmsg text => if text.isEmpty then none else some 0x03

/-- The run up to this state ends well: no partial command, and READY or UNCONFIGURED (`70_reset_and_hazards.md` R141). -/
def endsWell (s : State) : Bool := s.port.isEmpty && s.asm.isEmpty && !s.fault

/-- The run up to this state ends in a fault (R141). -/
def endsInFault (s : State) : Bool := s.port.isEmpty && s.fault

/-- The result of a run (R141): the bytes the host took, the four status outputs and, when READY, the record. -/
structure RunResult where
  taken      : List Byte
  configured : Bool
  fault      : Bool
  fcause     : BitVec 4
  finfo      : Byte
  engine     : Option EngineRecord
  deriving DecidableEq, Repr

/-- The result of the run up to a state (R141): nothing is said of the registers when the engine is not READY. -/
def runResult (s : State) : RunResult where
  taken := s.taken
  configured := s.configured
  fault := s.fault
  fcause := s.fcause
  finfo := s.finfo
  engine := match lifecycleOf s with
    | .ready => some s.eng
    | .unconfigured => none
    | .faulted => none

end Sys2Proof.Machine
end

