-- ==== Sys2Proof/Certificates/Slice0/Obligations.lean ====
section
/-! DEFINITION. The statements about the engine, for the provers. Each cites in its docstring the rule of spec/ it
formalises. -/

open Sys2Proof Sys2Proof.Machine

/- Reset, stepping and framing. -/

/-- `70_reset_and_hazards.md` R129: a reset event, in any state (between the bytes of one command and in FAULTED too),
clears the flags, empties the assembler and discards untaken output (of the registers it says nothing: they are
unspecified); and no other event leaves FAULTED. That it also leaves the parameters, of which R130 says that the tables are
the same before and after it, and the host's side of the ports is the model's reading, log entry 12. -/
def Obligations.ResetEventClears : Prop :=
  (∀ (s : State) (rest : List PortEvent), s.port = .reset :: rest →
    ∃ t, step s = .next t ∧ t.configured = false ∧ t.fault = false ∧ t.fcause = 0 ∧ t.finfo = 0 ∧ t.asm = [] ∧
      t.out = [] ∧ t.cfg = s.cfg ∧ t.port = rest ∧ t.taken = s.taken) ∧
  (∀ s t : State, s.fault = true → step s = .next t → s.port.head? ≠ some .reset → t.fault = true)

/-- The state right after reset is UNCONFIGURED and legal (`10_state.md` R24, R27). -/
def Obligations.ResetStateIsLegal : Prop :=
  State.reset.Inv ∧ lifecycleOf State.reset = .unconfigured

/-- Words written out from `30_encoding.md` R53 to R56 decode to the commands they stand for; 0x00 and 0x06 are
illegal (R58). -/
def Obligations.EncodingWordsDecode : Prop :=
  decode [0x01, 0x42, 0x31, 0x32, 0x33, 0x41, 0x44, 0x54, 0x41, 0x42, 0x00, 0x05] =
    .command (.construct ⟨0x42, 0x31, 0x32, 0x33, 0x41, 0x44, 0x54⟩ [0x41, 0x42]) [0x05] ∧
  decode [0x02, 0x53] = .command (.encchr 0x53) [] ∧
  decode [0x03, 0x00] = .command (.msgchr 0x00) [] ∧
  decode [0x04, 0x02] = .command .step [0x02] ∧
  decode [0x05] = .command .rdoff [] ∧
  decode [0x06] = .illegal 0x06 [] ∧
  decode [0x00, 0x04] = .illegal 0x00 [0x04]

/-- The bytes at the command port, after those in the assembler, decode to a command: the step is that command's meaning,
with the assembler emptied and the command's bytes gone from the port (`30_encoding.md` R57); that one step takes all of
the command's bytes, with output waiting or not, is the model's choice (log entry 10). -/
def Obligations.StepRunsDecodedCommand : Prop :=
  ∀ (s : State) (b : Byte) (rest : List PortEvent) (i : Instr) (more : List Byte),
    s.fault = false → s.port = .byte b :: rest → decode (s.asm ++ leadingBytes s.port) = .command i more →
    step s = exec i { s with asm := [], port := more.map .byte ++ afterBytes s.port }

/-- A well-formed command sent to an engine with an empty assembler, with anything presented after it, is run by one step,
and what was presented after it is left as it was (`30_encoding.md` R57; one step for a command: log entry 10). -/
def Obligations.StepRunsSentCommand : Prop :=
  ∀ (s : State) (i : Instr) (rest : List PortEvent),
    s.fault = false → s.asm = [] → i.wellFormed = true → (∀ text, i ≠ .encmsg text) →
    s.port = (encode i).map .byte ++ rest → step s = exec i { s with port := rest }

/-- The table word placed by `withFetchWord` is the command the next step runs (log entry 6); that one step takes all of its
bytes, with output waiting or not, is the model's choice (log entry 10). -/
def Obligations.StepRunsPlacedWord : Prop :=
  ∀ (s : State) (nbits w : Nat) (i : Instr),
    s.fault = false → decodeTableWord nbits w = some i →
    step (s.withFetchWord nbits w) = exec i { s with asm := [] }

/-- `60_exceptions.md` R120: an opcode byte other than 0x01..0x05 raises IllegalCommand with itself as info, in
UNCONFIGURED and in READY. R120 speaks of a byte that has been accepted; that the next step accepts the byte presented, with
output waiting or not, is the model's choice (log entry 10). -/
def Obligations.IllegalOpcodeFaults : Prop :=
  ∀ (s : State) (op : Byte) (rest : List PortEvent),
    s.fault = false → s.asm = [] → s.port = .byte op :: rest → op ∉ [0x01, 0x02, 0x03, 0x04, 0x05] →
    ∃ t, step s = .next t ∧ Faulted 7 op { s with port := rest } t

/-- Bytes that are not yet a whole command have no effect but to wait in the assembler (`30_encoding.md` R57; one step
for all of them: log entry 10). -/
def Obligations.PartialCommandOnlyWaits : Prop :=
  ∀ (s : State) (b : Byte) (rest : List PortEvent),
    s.fault = false → s.port = .byte b :: rest → decode (s.asm ++ leadingBytes s.port) = .incomplete →
    step s = .next { s with asm := s.asm ++ leadingBytes s.port, port := afterBytes s.port }

/-- It does not matter where the bytes of a command are cut: presented in two pieces, the first of them incomplete, they
give what they give presented at once (`30_encoding.md` R57, `70_reset_and_hazards.md` R142). That each piece takes one step,
with output waiting or not, is the model's choice (log entry 10). -/
def Obligations.SplitBytesGiveTheSame : Prop :=
  ∀ (s : State) (xs ys : List Byte) (rest : List PortEvent),
    s.fault = false → decode (s.asm ++ xs) = .incomplete → ys ≠ [] →
    ∃ t, step { s with port := xs.map .byte } = .next t ∧
      step { t with port := ys.map .byte ++ rest } = step { s with port := (xs ++ ys).map .byte ++ rest }

/-- Decoding an encoded well-formed command gives it back and leaves what follows; the pseudo-instruction's bytes decode to
its first MSGCHR and leave the rest of the text's (`30_encoding.md` R53 to R57, R62). -/
def Obligations.DecodeOfEncode : Prop :=
  (∀ (i : Instr) (rest : List Byte), i.wellFormed = true → (∀ text, i ≠ .encmsg text) →
    decode (encode i ++ rest) = .command i rest) ∧
  (∀ (c : Byte) (cs rest : List Byte),
    decode (encode (.encmsg (c :: cs)) ++ rest) = .command (.msgchr c) (encode (.encmsg cs) ++ rest))

/-- What decodes to a command is that command's encoding, well formed, and never the pseudo-instruction
(`30_encoding.md` R53 to R57). -/
def Obligations.EncodeOfDecode : Prop :=
  ∀ (bs rest : List Byte) (i : Instr), decode bs = .command i rest →
    bs = encode i ++ rest ∧ i.wellFormed = true ∧ ∀ text, i ≠ .encmsg text

/-- `30_encoding.md` R56, R58: exactly the opcode bytes outside 0x01..0x05 are illegal, whatever follows. -/
def Obligations.IllegalExactlyOutsideTable : Prop :=
  ∀ (op : Byte) (bs : List Byte), decode (op :: bs) = .illegal op bs ↔ op ∉ [0x01, 0x02, 0x03, 0x04, 0x05]

/- CONSTRUCT. -/

/-- CONSTRUCT completes when every check passes: the record committed is the one its bytes name, and nothing else changes
but `configured` (`40_construct.md` R63 to R67, R70, R72; last write wins). -/
def Obligations.ConstructCommits : Prop :=
  ∀ (s : State) (r : ConfigRecord) (plug : List Byte),
    s.fault = false → firstFault r plug = none →
    ∃ e, exec (.construct r plug) s = .next { s with eng := e, configured := true } ∧
      reflectorValue e.refsel = r.reflector.toNat - 0x41 ∧
      rotorValue e.rsel.left = r.rotorLeft.toNat - 0x30 ∧
      rotorValue e.rsel.middle = r.rotorMiddle.toNat - 0x30 ∧
      rotorValue e.rsel.right = r.rotorRight.toNat - 0x30 ∧
      e.off.left.val = r.startLeft.toNat - 0x41 ∧
      e.off.middle.val = r.startMiddle.toNat - 0x41 ∧
      e.off.right.val = r.startRight.toNat - 0x41 ∧
      ∀ p : Idx, e.pb[p] = lastWrite (pairWrites (letterPairs plug)) p

/-- `60_exceptions.md` R113 to R116: a CONSTRUCT with a bad byte raises the fault of the first check that fails, with that
byte as info. -/
def Obligations.ConstructFaultsInOrder : Prop :=
  ∀ (s : State) (r : ConfigRecord) (plug : List Byte) (code : BitVec 4) (info : Byte),
    s.fault = false → firstFault r plug = some (code, info) →
    ∃ t, exec (.construct r plug) s = .next t ∧ Faulted code info s t

/-- The frame of CONSTRUCT: nothing on the host's side of the ports changes and nothing is emitted; a CONSTRUCT that
succeeds leaves the fault registers as they were (`10_state.md` R26, `40_construct.md` R63). -/
def Obligations.ConstructFrame : Prop :=
  ∀ (s t : State) (r : ConfigRecord) (plug : List Byte), exec (.construct r plug) s = .next t →
    t.cfg = s.cfg ∧ t.asm = s.asm ∧ t.port = s.port ∧ t.taken = s.taken ∧ t.out = s.out ∧
    (t.configured = true → t.fault = s.fault ∧ t.fcause = s.fcause ∧ t.finfo = s.finfo ∧ t.unspec = s.unspec)

/-- Nothing of the previous engine remains after a CONSTRUCT: what it builds does not depend on the state it is given in
(`40_construct.md` R73). -/
def Obligations.ConstructForgetsPreviousEngine : Prop :=
  ∀ (s s' t t' : State) (r : ConfigRecord) (plug : List Byte),
    exec (.construct r plug) s = .next t → exec (.construct r plug) s' = .next t' → t.configured = true →
    t'.configured = true ∧ t'.eng = t.eng

/-- When no letter is in two pairs, the plugboard built is an involution that moves exactly two letters for each token of
two different letters, whether or not other tokens pair a letter with itself (`40_construct.md` R74, `10_state.md`
R23). -/
def Obligations.PlugboardIsInvolution : Prop :=
  ∀ (plug : List Byte) (pb : Table), buildPlugboard plug = .ok pb → lettersInOnePair plug →
    Involutive pb ∧
    ((List.finRange 26).filter (fun p => pb[p] != p)).length = 2 * (movingPairs plug).length

/-- `40_construct.md` R68: the streaming tokenizer, with a saturating length and two bytes, builds the plugboard that the
tokens build, fault for fault. -/
def Obligations.StreamingTokenizerAgrees : Prop :=
  ∀ plug : List Byte, streamPlugboard plug = buildPlugboard plug

/-- Tokens whose length is not 2 are never inspected: two strings with the same tokens of length 2 are one to CONSTRUCT
(`40_construct.md` R69, `60_exceptions.md` R112). -/
def Obligations.MalformedTokensAreDropped : Prop :=
  ∀ (s : State) (r : ConfigRecord) (p q : List Byte),
    (tokens p).filter (fun t => t.length == 2) = (tokens q).filter (fun t => t.length == 2) →
    exec (.construct r p) s = exec (.construct r q) s

/-- The tokens are the pieces between the commas, bytes 0x2C, one more than there are commas, and put together again with
commas they are the string (`30_encoding.md` R51, `40_construct.md` R68). -/
def Obligations.TokensAreThePieces : Prop :=
  ∀ plug : List Byte,
    (tokens plug).length = plug.count 0x2C + 1 ∧
    (∀ t ∈ tokens plug, 0x2C ∉ t) ∧
    List.intercalate [0x2C] (tokens plug) = plug

/- The stepper. -/

/-- `41_stepper.md` R76, STEP1: the right rotor advances; it carries into the middle one when its new offset is its notch
value, and that one into the left when, having just advanced, its new offset is its notch value. -/
def Obligations.StepOnceCarries : Prop :=
  ∀ (nMiddle nRight : Idx) (o : Bank Idx),
    let t := stepOnce nMiddle nRight o
    t.right.val = (o.right.val + 1) % 26 ∧
    (t.right = nRight → t.middle.val = (o.middle.val + 1) % 26) ∧
    (t.right ≠ nRight → t.middle = o.middle) ∧
    (t.right = nRight ∧ t.middle = nMiddle → t.left.val = (o.left.val + 1) % 26) ∧
    (¬(t.right = nRight ∧ t.middle = nMiddle) → t.left = o.left)

/-- STEPCHAR is STEP1 performed `STEPS_PER_CHAR` times, with the notches of the rotors whose codes the middle and right
selectors hold; the notch of rotor code `k` is in row `k - 1` of the notch table, whose rows are counted from 0
(`41_stepper.md` R75, R77; `10_state.md` R14, `20_memory.md` R31). -/
def Obligations.StepcharRepeatsStepOnce : Prop :=
  ∀ (P : Params) (e : EngineRecord) (kMiddle kRight : Fin 5),
    kMiddle.val + 1 = rotorValue e.rsel.middle → kRight.val + 1 = rotorValue e.rsel.right →
    let one := stepOnce P.rotorNotch[kMiddle] P.rotorNotch[kRight]
    (P.stepsPerChar = .single → steppedOffsets P e = one e.off) ∧
    (P.stepsPerChar = .double → steppedOffsets P e = one (one e.off))

/-- With `STEPS_PER_CHAR` = 2 the right rotor advances by 2 and the others by 0 or 1: the middle exactly when one of the
two new right offsets is the right notch, the left exactly when the middle then lands on its own
(`41_stepper.md` R78 (a) to (c)). -/
def Obligations.DoubleStepCarriesOnce : Prop :=
  ∀ (nMiddle nRight : Idx) (o : Bank Idx),
    let t := stepTimes nMiddle nRight 2 o
    let carry := nRight.val = (o.right.val + 1) % 26 ∨ nRight.val = (o.right.val + 2) % 26
    t.right.val = (o.right.val + 2) % 26 ∧
    (carry → t.middle.val = (o.middle.val + 1) % 26) ∧
    (¬carry → t.middle = o.middle) ∧
    (carry ∧ t.middle = nMiddle → t.left.val = (o.left.val + 1) % 26) ∧
    (¬(carry ∧ t.middle = nMiddle) → t.left = o.left)

/-- STEP1 is a bijection of the offset triples, for every pair of notches (`41_stepper.md` R78 (d)). -/
def Obligations.StepOnceIsBijective : Prop :=
  ∀ nMiddle nRight : Idx, Function.Bijective (stepOnce nMiddle nRight)

/-- STEP1 runs the 17576 offset triples through one cycle: from any triple every triple is reached, and after 17576
applications the first is back (`41_stepper.md` R78 (d)). -/
def Obligations.StepperIsOneCycle : Prop :=
  ∀ (nMiddle nRight : Idx) (o o' : Bank Idx),
    (∃ k, k < 17576 ∧ stepTimes nMiddle nRight k o = o') ∧ stepTimes nMiddle nRight 17576 o = o

/-- `41_stepper.md` R80: 26 applications of STEP1 return the right offset, 26 advances of the middle rotor, which take
26 × 26 of them, return the middle one, and with two STEP1s a command 13 STEP commands return the right one. -/
def Obligations.RotorsWrapAround : Prop :=
  ∀ (nMiddle nRight : Idx) (o : Bank Idx),
    (stepTimes nMiddle nRight 26 o).right = o.right ∧
    (stepTimes nMiddle nRight 676 o).middle = o.middle ∧
    ((stepTimes nMiddle nRight 2)^[13] o).right = o.right

/-- `41_stepper.md` R81, STEP: with an engine it runs STEPCHAR and nothing else, without one it raises NotConfigured, and
to later commands it is a letter enciphered and discarded. -/
def Obligations.StepRunsStepchar : Prop :=
  (∀ s : State, s.Ready → exec .step s = .next { s with eng := steppedRecord s.cfg s.eng }) ∧
  (∀ s : State, s.fault = false → s.configured = false → ∃ t, exec .step s = .next t ∧ Faulted 5 0x04 s t) ∧
  (∀ (s t : State) (c : Byte), s.Ready → isUpper c = true → exec (.encchr c) s = .next t →
    exec .step s = .next { t with out := s.out })

/-- The rotors move the same way whatever the letter: any letter, given to ENCCHR or to MSGCHR, and STEP leave the same
engine record (`41_stepper.md` R75, R84). -/
def Obligations.SteppingIgnoresTheLetter : Prop :=
  ∀ (s t t' u : State) (c c' : Byte), s.Ready → isUpper c = true → isAlpha c' = true →
    exec (.encchr c) s = .next t → exec (.msgchr c') s = .next t' → exec .step s = .next u →
    t.eng = u.eng ∧ t'.eng = u.eng

/- The signal path. -/

/-- `42_pipeline.md` R87, FWD1: the wiring is read at the letter shifted by the offset and the offset is subtracted, both
modulo 26 with the non-negative remainder. The wiring of the rotor code held in the slot's selector, code `k`, is row
`k - 1` of the rotor table, whose rows are counted from 0 (`10_state.md` R14, `20_memory.md` R30). -/
def Obligations.ForwardRotorRule : Prop :=
  ∀ (P : Params) (e : EngineRecord) (i : Slot) (sel : RotorSel) (o l p : Idx) (k : Fin 5),
    slotHolds e i sel o → k.val + 1 = rotorValue sel → p.val = (l.val + o.val) % 26 →
    ((fwd1 P e i l).val : Int) = (((P.rotorWiring[k])[p].val : Int) - (o.val : Int)) % 26

/-- `42_pipeline.md` R90, BWD1: the letter shifted by the offset is taken as a symbol, the position that stores it is found,
and the offset is subtracted from the position; the wiring is found as in FWD1. -/
def Obligations.BackwardRotorRule : Prop :=
  ∀ (P : Params) (e : EngineRecord) (i : Slot) (sel : RotorSel) (o l p : Idx) (k : Fin 5),
    slotHolds e i sel o → k.val + 1 = rotorValue sel → isPermutation P.rotorWiring[k] = true →
    (P.rotorWiring[k])[p].val = (l.val + o.val) % 26 →
    ∃ m, bwd1 P e i l = some m ∧ (m.val : Int) = ((p.val : Int) - (o.val : Int)) % 26

/-- PATH is its five steps in order: plugboard, rotors right to left, reflector at no offset, rotors left to right,
plugboard (`42_pipeline.md` R85, R86, R88, R89, R91, R92). The reflector is the row of the reflector table that the value
of `refsel` numbers (`10_state.md` R15, `20_memory.md` R32). -/
def Obligations.PathStagesInOrder : Prop :=
  ∀ (P : Params) (e : EngineRecord) (l y : Idx) (r : Fin 3), r.val = reflectorValue e.refsel →
    (path P e l = some y ↔
      ∃ a b c : Idx,
        bwd1 P e .left ((P.reflectorWiring[r])[
          fwd1 P e .left (fwd1 P e .middle (fwd1 P e .right e.pb[l]))]) = some a ∧
        bwd1 P e .middle a = some b ∧ bwd1 P e .right b = some c ∧ y = e.pb[c])

/-- `42_pipeline.md` R95: with the offsets fixed, the backward pass of a rotor is the inverse of its forward pass, each is a
permutation, and BWD is the inverse of FWD. -/
def Obligations.BackwardInvertsForward : Prop :=
  (∀ (P : Params) (e : EngineRecord) (i : Slot), isPermutation (slotWiring P e i) = true →
    (∀ l, bwd1 P e i (fwd1 P e i l) = some l) ∧
    (∀ l, ∃ m, bwd1 P e i l = some m ∧ fwd1 P e i m = l) ∧
    Function.Bijective (fwd1 P e i)) ∧
  (∀ (P : Params) (e : EngineRecord), slotsBijective P e →
    ∀ l, bwd P e (fwd P e l) = some l ∧ ∃ m, bwd P e l = some m ∧ fwd P e m = l)

/-- `42_pipeline.md` R93: PATH has a value for every letter exactly when each of the three inverse lookups is defined, that
is under the bijection premise. -/
def Obligations.PathDefinedUnderPremise : Prop :=
  ∀ (P : Params) (e : EngineRecord), (∀ l, (path P e l).isSome = true) ↔ slotsBijective P e

/-- PATH is a permutation when the plugboard and the reflector table are bijections, whether or not they are involutions
(`42_pipeline.md` R96). -/
def Obligations.PathIsPermutation : Prop :=
  ∀ (P : Params) (e : EngineRecord), slotsBijective P e → isPermutation e.pb = true →
    isPermutation (P.reflectorWiring[reflectorRow e.refsel]) = true →
    ∀ y, ∃ l, path P e l = some y ∧ ∀ l', path P e l' = some y → l' = l

/-- `42_pipeline.md` R97: with an involutive plugboard and an involutive reflector PATH is an involution. -/
def Obligations.PathIsInvolution : Prop :=
  ∀ (P : Params) (e : EngineRecord), reciprocal P e → ∀ l, ∃ y, path P e l = some y ∧ path P e y = some l

/-- `42_pipeline.md` R99: if moreover the reflector has no fixed point, no letter enciphers to itself. -/
def Obligations.NoLetterEnciphersToItself : Prop :=
  ∀ (P : Params) (e : EngineRecord), reciprocal P e →
    (∀ p : Idx, (P.reflectorWiring[reflectorRow e.refsel])[p] ≠ p) → ∀ l, path P e l ≠ some l

/- Encryption and read-out. -/

/-- `43_encrypt.md` R101, ENCCHR: an uppercase letter is stepped for and then enciphered at the new offsets, with nothing
else changed; any other byte raises BadSymbol; without an engine it raises NotConfigured first. -/
def Obligations.EncchrEnciphers : Prop :=
  (∀ (s : State) (c : Byte) (l : Idx), s.Ready → isUpper c = true → l.val = c.toNat - 0x41 →
    slotsBijective s.cfg s.eng →
    ∃ y, path s.cfg (steppedRecord s.cfg s.eng) l = some y ∧
      exec (.encchr c) s = .next { s with
        eng := steppedRecord s.cfg s.eng, out := s.out ++ [BitVec.ofNat 8 (0x41 + y.val)] }) ∧
  (∀ (s : State) (c : Byte), s.Ready → isUpper c = false →
    ∃ t, exec (.encchr c) s = .next t ∧ Faulted 6 c s t) ∧
  (∀ (s : State) (c : Byte), s.fault = false → s.configured = false →
    ∃ t, exec (.encchr c) s = .next t ∧ Faulted 5 0x02 s t)

/-- `43_encrypt.md` R102, MSGCHR: a letter of either case is folded, stepped for and enciphered; any other byte changes
nothing at all; without an engine every operand raises NotConfigured. -/
def Obligations.MsgchrFiltersAndEnciphers : Prop :=
  (∀ (s : State) (c : Byte) (l : Idx), s.Ready → isAlpha c = true → l.val = (toUpper c).toNat - 0x41 →
    slotsBijective s.cfg s.eng →
    ∃ y, path s.cfg (steppedRecord s.cfg s.eng) l = some y ∧
      exec (.msgchr c) s = .next { s with
        eng := steppedRecord s.cfg s.eng, out := s.out ++ [BitVec.ofNat 8 (0x41 + y.val)] }) ∧
  (∀ (s : State) (c : Byte), s.Ready → isAlpha c = false → exec (.msgchr c) s = .next s) ∧
  (∀ (s : State) (c : Byte), s.fault = false → s.configured = false →
    ∃ t, exec (.msgchr c) s = .next t ∧ Faulted 5 0x03 s t)

/-- Case is folded before encoding: MSGCHR of a letter and of its uppercase form are one, and for an uppercase letter
MSGCHR and ENCCHR are one in a configured engine (`43_encrypt.md` R102, R104). -/
def Obligations.MessageCaseIsFolded : Prop :=
  (∀ (s : State) (c : Byte), exec (.msgchr (toUpper c)) s = exec (.msgchr c) s) ∧
  (∀ (s : State) (c : Byte), s.configured = true → isUpper c = true → exec (.msgchr c) s = exec (.encchr c) s)

/-- `43_encrypt.md` R108, RDOFF: it emits the three offsets as letters, left first, and changes nothing else; without an
engine it raises NotConfigured; straight after a CONSTRUCT it emits the start letters. -/
def Obligations.RdoffEmitsOffsets : Prop :=
  (∀ s : State, s.Ready → exec .rdoff s = .next { s with
    out := s.out ++ [BitVec.ofNat 8 (0x41 + s.eng.off.left.val), BitVec.ofNat 8 (0x41 + s.eng.off.middle.val),
      BitVec.ofNat 8 (0x41 + s.eng.off.right.val)] }) ∧
  (∀ s : State, s.fault = false → s.configured = false → ∃ t, exec .rdoff s = .next t ∧ Faulted 5 0x05 s t) ∧
  (∀ (s t : State) (r : ConfigRecord) (plug : List Byte),
    exec (.construct r plug) s = .next t → t.configured = true →
    exec .rdoff t = .next { t with out := t.out ++ [r.startLeft, r.startMiddle, r.startRight] })

/-- `43_encrypt.md` R106 with R84 of `41_stepper.md`: ENCMSG completes in a READY engine; its output has as many bytes as
the text has letters, all of them A to Z, and its only other effect is the stepping for that many letters. -/
def Obligations.EncmsgEnciphersTheLetters : Prop :=
  ∀ (s : State) (text : List Byte), s.Ready → slotsBijective s.cfg s.eng →
    ∃ ys : List Byte,
      ys.length = (text.filter isAlpha).length ∧ (∀ y ∈ ys, 0x41 ≤ y.toNat ∧ y.toNat ≤ 0x5A) ∧
      exec (.encmsg text) s = .next { s with
        eng := { s.eng with
          off := stepTimes (s.cfg.rotorNotch[rotorRow s.eng.rsel.middle]) (s.cfg.rotorNotch[rotorRow s.eng.rsel.right])
            (stepCount s.cfg.stepsPerChar * (text.filter isAlpha).length) s.eng.off }
        out := s.out ++ ys }

/-- Nothing marks the start or the end of a message: two messages one after the other are their concatenation
(`43_encrypt.md` R107). -/
def Obligations.MessagesConcatenate : Prop :=
  ∀ (s t : State) (xs ys : List Byte), s.Ready → exec (.encmsg xs) s = .next t →
    exec (.encmsg (xs ++ ys)) s = exec (.encmsg ys) t

/-- ENCMSG is its command sequence: as many steps as the text has bytes, at the bytes sent for it, do what its meaning
does (`43_encrypt.md` R105, `30_encoding.md` R62). The number of steps, one for a command while the letters already emitted
wait untaken, is the model's choice (log entry 10): R61 and R142 let the engine stall there. -/
def Obligations.EncmsgRunsAsItsCommands : Prop :=
  ∀ (s : State) (text : List Byte) (rest : List PortEvent), s.Ready → s.asm = [] →
    stepMany text.length { s with port := (encode (.encmsg text)).map .byte ++ rest } =
      exec (.encmsg text) { s with port := rest }

/-- `42_pipeline.md` R98: two engines in the same state: one gives `y` for `x` exactly when the other gives `x` for `y`, and
both end in the same state. -/
def Obligations.CharactersAreReciprocal : Prop :=
  ∀ (s s' : State) (x y : Byte), s.Ready → s'.Ready → s'.cfg = s.cfg → s'.eng = s.eng → reciprocal s.cfg s.eng →
    isUpper x = true → isUpper y = true →
    ((∃ t, exec (.encchr x) s = .next t ∧ t.out = s.out ++ [y]) ↔
      ∃ t', exec (.encchr y) s' = .next t' ∧ t'.out = s'.out ++ [x]) ∧
    ∃ t t', exec (.encchr x) s = .next t ∧ exec (.encchr y) s' = .next t' ∧ t.eng = t'.eng

/-- `43_encrypt.md` R110: an engine constructed from a configuration enciphers a text; constructed again from the same one it
turns the ciphertext into the uppercase letters of the text, for either stepping contract. -/
def Obligations.MessagesAreReciprocal : Prop :=
  ∀ (s s1 : State) (r : ConfigRecord) (plug text : List Byte),
    exec (.construct r plug) s = .next s1 → s1.configured = true → reciprocal s1.cfg s1.eng →
    ∃ (t s2 t2 : State) (ys : List Byte),
      exec (.encmsg text) s1 = .next t ∧ t.out = s1.out ++ ys ∧
      exec (.construct r plug) t = .next s2 ∧ exec (.encmsg ys) s2 = .next t2 ∧
      t2.out = s2.out ++ (text.filter isAlpha).map toUpper

/- Frames, faults and the whole machine. -/

/-- The frame of ENCCHR, MSGCHR, STEP, RDOFF and ENCMSG when they do not fault: no configuration register, no flag and
nothing of the host's changes, output is only added to; RDOFF changes no register and STEP emits nothing
(`10_state.md` R17, R26). -/
def Obligations.ReadyCommandsFrame : Prop :=
  ∀ (i : Instr) (s t : State), (∀ r plug, i ≠ .construct r plug) → exec i s = .next t → t.fault = false →
    t.eng.refsel = s.eng.refsel ∧ t.eng.rsel = s.eng.rsel ∧ t.eng.pb = s.eng.pb ∧
    t.configured = s.configured ∧ t.fault = s.fault ∧ t.fcause = s.fcause ∧ t.finfo = s.finfo ∧
    t.cfg = s.cfg ∧ t.asm = s.asm ∧ t.port = s.port ∧ t.taken = s.taken ∧ t.unspec = s.unspec ∧
    s.out <+: t.out ∧ (i = .rdoff → t.eng = s.eng) ∧ (i = .step → t.out = s.out)

/-- `60_exceptions.md` R117: without an engine ENCCHR, MSGCHR, STEP, RDOFF and a non-empty ENCMSG raise NotConfigured with
the opcode byte, whatever their operands. -/
def Obligations.NotConfiguredFaults : Prop :=
  ∀ (i : Instr) (op : Byte) (s : State), neededOpcode i = some op → s.fault = false → s.configured = false →
    ∃ t, exec i s = .next t ∧ Faulted 5 op s t

/-- The transitions to FAULTED are those of the rules: each command raises only its own causes and only where they apply,
NotConfigured before BadSymbol, and a command that faults has no other visible effect (`60_exceptions.md` R119, R121, R122,
R125, R128). -/
def Obligations.FaultCausesByCommand : Prop :=
  ∀ (i : Instr) (s t : State), s.fault = false → exec i s = .next t → t.fault = true →
    Faulted t.fcause t.finfo s t ∧
    match i with
    | .construct r plug => firstFault r plug = some (t.fcause, t.finfo)
    | .encchr c =>
      (t.fcause = 5 ∧ t.finfo = 0x02 ∧ s.configured = false) ∨
      (t.fcause = 6 ∧ t.finfo = c ∧ s.configured = true ∧ isUpper c = false)
    | .msgchr _ => t.fcause = 5 ∧ t.finfo = 0x03 ∧ s.configured = false
    | .step => t.fcause = 5 ∧ t.finfo = 0x04 ∧ s.configured = false
    | .rdoff => t.fcause = 5 ∧ t.finfo = 0x05 ∧ s.configured = false
    | .encmsg _ => t.fcause = 5 ∧ t.finfo = 0x03 ∧ s.configured = false

/-- FAULTED is absorbing (`60_exceptions.md` R123): a command is stuck there (the model's stop, log entry 4), and however
many steps are taken with no reset among the host's events, no register changes and no output is produced; the host only
takes what was emitted before. -/
def Obligations.FaultedIsAbsorbing : Prop :=
  (∀ (s : State) (i : Instr), s.fault = true → i ≠ .encmsg [] → exec i s = .fault (.stopped s.fcause s.finfo)) ∧
  (∀ (n : Nat) (s : State), s.fault = true → .reset ∉ s.port →
    ∃ t, stepMany n s = .next t ∧ t.fault = true ∧ t.fcause = s.fcause ∧ t.finfo = s.finfo ∧
      t.configured = s.configured ∧ t.eng = s.eng ∧ t.asm = s.asm ∧ t.cfg = s.cfg ∧
      t.taken ++ t.out = s.taken ++ s.out)

/-- Every step keeps the invariant: legal flag combinations and cause codes, an assembler that holds no whole command, and
output that is letters only (`10_state.md` R19, R23, R24; `43_encrypt.md` R106). -/
def Obligations.StepKeepsInvariant : Prop :=
  ∀ s t : State, s.Inv → step s = .next t → t.Inv

/-- The lifecycle changes in three ways only: a reset event gives UNCONFIGURED, a fault gives FAULTED, and a CONSTRUCT
takes UNCONFIGURED to READY (`10_state.md` R24). -/
def Obligations.LifecycleTransitions : Prop :=
  ∀ s t : State, step s = .next t → lifecycleOf t ≠ lifecycleOf s →
    (lifecycleOf t = .unconfigured ∧ s.port.head? = some .reset) ∨
    (lifecycleOf t = .faulted ∧ s.fault = false) ∨
    (lifecycleOf s = .unconfigured ∧ lifecycleOf t = .ready ∧
      ∃ r plug more, decode (s.asm ++ leadingBytes s.port) = .command (.construct r plug) more)

/-- No step changes the parameters: the tables are constants (`10_state.md` R22, `70_reset_and_hazards.md` R130). -/
def Obligations.ParametersNeverChange : Prop :=
  ∀ s t : State, step s = .next t → t.cfg = s.cfg

/-- Output bytes appear in the order they are emitted, and no step but a reset loses or reorders one
(`20_memory.md` R41, `70_reset_and_hazards.md` R142). -/
def Obligations.OutputIsNeverLost : Prop :=
  ∀ s t : State, step s = .next t → s.port.head? ≠ some .reset → (s.taken ++ s.out) <+: (t.taken ++ t.out)

/-- With rotor tables that meet the premise every step answers a next state, and uses up at least one of
the host's events while there is one; the premise on the assembler is part of the invariant. The spec promises that a byte
is accepted only of an engine that is not FAULTED and whose host keeps taking output (`60_exceptions.md` R128,
`70_reset_and_hazards.md` R140); that a byte presented in FAULTED is used up (dropped, not accepted) is the model's reading,
log entry 7, and that bytes are accepted while output waits is the model's choice, log entry 10. -/
def Obligations.EveryStepProgresses : Prop :=
  ∀ s : State, rotorsBijective s.cfg → decode s.asm = .incomplete →
    ∃ t, step s = .next t ∧ (s.port ≠ [] → t.port.length < s.port.length)

/-- Registers the spec leaves unspecified are never observed: in an engine that is not configured no command's outcome,
flags or output depend on them (`10_state.md` R27, `93_implementation_defined.md` S1). -/
def Obligations.UnspecifiedRegistersUnobserved : Prop :=
  ∀ (s t : State) (e : EngineRecord) (n : Nat) (i : Instr), s.configured = false → exec i s = .next t →
    ∃ t', exec i { s with eng := e, unspec := n } = .next t' ∧
      t'.configured = t.configured ∧ t'.fault = t.fault ∧ t'.fcause = t.fcause ∧ t'.finfo = t.finfo ∧
      t'.out = t.out ∧ t'.cfg = t.cfg ∧ t'.asm = t.asm ∧ t'.port = t.port ∧ t'.taken = t.taken ∧
      (t.configured = true → t'.eng = t.eng)

/-- Two READY engines with equal parameters and records behave identically: same output, same fault, same record after
(`10_state.md` R25, `43_encrypt.md` R109). -/
def Obligations.BehaviourIsTheRecord : Prop :=
  ∀ (s s' t : State) (i : Instr), s.Ready → s'.Ready → s'.cfg = s.cfg → s'.eng = s.eng → exec i s = .next t →
    ∃ (t' : State) (ys : List Byte), exec i s' = .next t' ∧ t.out = s.out ++ ys ∧ t'.out = s'.out ++ ys ∧
      t'.configured = t.configured ∧ t'.fault = t.fault ∧
      (t.configured = true → t'.eng = t.eng) ∧
      (t.fault = true → t'.fcause = t.fcause ∧ t'.finfo = t.finfo)

/-- The host takes the oldest output byte, in any lifecycle state; with none to take nothing moves, and with nothing
presented the engine holds its state (`30_encoding.md` R61, `60_exceptions.md` R119, R127). -/
def Obligations.TakeMovesTheOldestByte : Prop :=
  (∀ (s : State) (c : Byte) (cs : List Byte) (rest : List PortEvent), s.port = .take :: rest → s.out = c :: cs →
    step s = .next { s with out := cs, taken := s.taken ++ [c], port := rest }) ∧
  (∀ (s : State) (rest : List PortEvent), s.port = .take :: rest → s.out = [] →
    step s = .next { s with port := rest }) ∧
  (∀ s : State, s.port = [] → step s = .next s)

/-- The default tables meet all three premises (`20_memory.md` R35, R36; `00_scope.md` R8). -/
def Obligations.DefaultTablesMeetPremises : Prop :=
  paramsLegal defaultParams

/-- Letter codes and indices are inverse to each other, exactly the codes 0x41..0x5A have an index, and the character
classes and the case fold are those byte ranges and that subtraction (`30_encoding.md` R45, R46). -/
def Obligations.LetterCodesAreInverse : Prop :=
  (∀ i : Idx, letterIdx (letterOf i) = some i) ∧
  (∀ (c : Byte) (i : Idx), letterIdx c = some i → letterOf i = c) ∧
  (∀ c : Byte, (∃ i, letterIdx c = some i) ↔ 0x41 ≤ c.toNat ∧ c.toNat ≤ 0x5A) ∧
  (∀ c : Byte, isUpper c = true ↔ 0x41 ≤ c.toNat ∧ c.toNat ≤ 0x5A) ∧
  (∀ c : Byte, isLower c = true ↔ 0x61 ≤ c.toNat ∧ c.toNat ≤ 0x7A) ∧
  (∀ c : Byte, isAlpha c = true ↔
    (0x41 ≤ c.toNat ∧ c.toNat ≤ 0x5A) ∨ (0x61 ≤ c.toNat ∧ c.toNat ≤ 0x7A)) ∧
  (∀ c : Byte, 0x61 ≤ c.toNat → c.toNat ≤ 0x7A → (toUpper c).toNat = c.toNat - 0x20) ∧
  (∀ c : Byte, c.toNat < 0x61 ∨ 0x7A < c.toNat → toUpper c = c)
end

