-- ==== Sys2Proof/Laws/Decode.lean ====
section
/-! SUPPORT. Gathering command bytes and splitting at the terminator. -/

namespace Sys2Proof

/-- The string up to a terminator is found when it holds no 0x00 itself. -/
theorem splitTerminator_append {plug : List Byte} (h : plug.all (fun b => b != 0x00) = true) (rest : List Byte) :
    splitTerminator (plug ++ 0x00 :: rest) = some (plug, rest) := by
  induction plug with
  | nil => simp [splitTerminator]
  | cons b bs ih =>
    simp only [List.all_cons, Bool.and_eq_true, bne_iff_ne, ne_eq] at h
    rw [List.cons_append, splitTerminator, if_neg h.1, ih h.2]
    rfl

/-- What `splitTerminator` finds: the string without 0x00, the terminator, and the rest. -/
theorem splitTerminator_some {bs plug rest : List Byte} (h : splitTerminator bs = some (plug, rest)) :
    bs = plug ++ 0x00 :: rest ∧ plug.all (fun b => b != 0x00) = true := by
  induction bs generalizing plug with
  | nil => simp [splitTerminator] at h
  | cons b bs ih =>
    simp only [splitTerminator] at h
    split at h
    · next hb => simp_all
    · next hb =>
      simp only [Option.map_eq_some_iff, Prod.exists, Prod.mk.injEq] at h
      obtain ⟨p, r, hpr, rfl, rfl⟩ := h
      obtain ⟨rfl, hall⟩ := ih hpr
      simp_all

namespace Machine

@[simp] theorem leadingBytes_append (bs : List Byte) (es : List PortEvent) :
    leadingBytes (bs.map .byte ++ es) = bs ++ leadingBytes es := by
  induction bs with
  | nil => rfl
  | cons b bs ih => simp [leadingBytes, ih]

@[simp] theorem afterBytes_append (bs : List Byte) (es : List PortEvent) :
    afterBytes (bs.map .byte ++ es) = afterBytes es := by
  induction bs with
  | nil => rfl
  | cons b bs ih => simp [afterBytes, ih]

/-- The events are the leading command bytes and then the others. -/
theorem leading_append_after (es : List PortEvent) :
    (leadingBytes es).map .byte ++ afterBytes es = es := by
  induction es with
  | nil => rfl
  | cons e es ih => cases e <;> simp [leadingBytes, afterBytes, ih]

end Machine
end Sys2Proof
end

