-- ==== Sys2Proof/Laws/Operands.lean ====
section
/-! SUPPORT. Letter codes, character classes and arithmetic modulo 26. -/

namespace Sys2Proof.Machine

theorem isUpper_iff (c : Byte) : isUpper c = true ↔ 0x41 ≤ c.toNat ∧ c.toNat ≤ 0x5A := by
  simp [isUpper]

theorem isLower_iff (c : Byte) : isLower c = true ↔ 0x61 ≤ c.toNat ∧ c.toNat ≤ 0x7A := by
  simp [isLower]

theorem letterOf_toNat (i : Idx) : (letterOf i).toNat = 0x41 + i.val := by
  have := i.isLt
  simp only [letterOf, BitVec.toNat_ofNat]
  omega

@[simp] theorem isUpper_letterOf (i : Idx) : isUpper (letterOf i) = true := by
  have := i.isLt
  rw [isUpper_iff, letterOf_toNat]
  omega

/-- `letterIdx` has a value exactly on uppercase letters, and the value is the code less 0x41. -/
theorem letterIdx_eq_some_iff (c : Byte) (i : Idx) :
    letterIdx c = some i ↔ isUpper c = true ∧ i.val = c.toNat - 0x41 := by
  rw [isUpper_iff]
  unfold letterIdx
  split
  · next h => simp [h, Fin.ext_iff, eq_comm]
  · next h => simp [h]

theorem letterIdx_eq_none_iff (c : Byte) : letterIdx c = none ↔ isUpper c = false := by
  rw [Bool.eq_false_iff, Ne, isUpper_iff]
  unfold letterIdx
  split <;> simp_all

/-- An uppercase letter has an index. -/
theorem exists_letterIdx {c : Byte} (h : isUpper c = true) : ∃ l, letterIdx c = some l := by
  cases hl : letterIdx c with
  | some l => exact ⟨l, rfl⟩
  | none => simp [(letterIdx_eq_none_iff c).mp hl] at h

theorem toUpper_of_isUpper {c : Byte} (h : isUpper c = true) : toUpper c = c := by
  have hn : ¬ isLower c = true := by
    rw [isLower_iff]; rw [isUpper_iff] at h; omega
  simp [toUpper, hn]

/-- Folding a letter of either case gives an uppercase letter. -/
theorem isUpper_toUpper {c : Byte} (h : isAlpha c = true) : isUpper (toUpper c) = true := by
  by_cases hl : isLower c = true
  · have hb := (isLower_iff c).mp hl
    rw [isUpper_iff]
    simp only [toUpper, hl, if_true, BitVec.toNat_sub]
    have : BitVec.toNat (0x20 : Byte) = 32 := rfl
    omega
  · simp [isAlpha, hl] at h
    rwa [toUpper_of_isUpper h]

/-- The rotor selector value `k` selects row `k - 1`. -/
theorem rotorRow_eq_of_value {sel : RotorSel} {k : Fin 5} (h : k.val + 1 = rotorValue sel) : rotorRow sel = k := by
  cases sel <;> (apply Fin.ext; simp only [rotorValue] at h; simp only [rotorRow]; omega)

/-- The reflector selector value `r` selects row `r`. -/
theorem reflectorRow_eq_of_value {sel : ReflectorSel} {r : Fin 3} (h : r.val = reflectorValue sel) :
    reflectorRow sel = r := by
  cases sel <;> (apply Fin.ext; simp only [reflectorValue] at h; simp only [reflectorRow]; omega)

theorem addMod_val (x o : Idx) : (addMod x o).val = (x.val + o.val) % 26 := rfl

theorem subMod_val (x o : Idx) : (subMod x o).val = (x.val + 26 - o.val) % 26 := rfl

@[simp] theorem subMod_addMod (x o : Idx) : subMod (addMod x o) o = x := by
  have := x.isLt; have := o.isLt
  apply Fin.ext
  rw [subMod_val, addMod_val]
  omega

@[simp] theorem addMod_subMod (x o : Idx) : addMod (subMod x o) o = x := by
  have := x.isLt; have := o.isLt
  apply Fin.ext
  rw [addMod_val, subMod_val]
  omega

end Sys2Proof.Machine
end

