-- ==== Sys2Proof/Laws/State.lean ====
section
/-! SUPPORT. One lemma for each field under each update of the state, so that no proof unfolds an update. -/

namespace Sys2Proof.Machine

@[simp] theorem emit_cfg (c : Byte) (s : State) : (emit c s).cfg = s.cfg := rfl
@[simp] theorem emit_eng (c : Byte) (s : State) : (emit c s).eng = s.eng := rfl
@[simp] theorem emit_configured (c : Byte) (s : State) : (emit c s).configured = s.configured := rfl
@[simp] theorem emit_fault (c : Byte) (s : State) : (emit c s).fault = s.fault := rfl
@[simp] theorem emit_fcause (c : Byte) (s : State) : (emit c s).fcause = s.fcause := rfl
@[simp] theorem emit_finfo (c : Byte) (s : State) : (emit c s).finfo = s.finfo := rfl
@[simp] theorem emit_asm (c : Byte) (s : State) : (emit c s).asm = s.asm := rfl
@[simp] theorem emit_out (c : Byte) (s : State) : (emit c s).out = s.out ++ [c] := rfl
@[simp] theorem emit_port (c : Byte) (s : State) : (emit c s).port = s.port := rfl
@[simp] theorem emit_taken (c : Byte) (s : State) : (emit c s).taken = s.taken := rfl
@[simp] theorem emit_unspec (c : Byte) (s : State) : (emit c s).unspec = s.unspec := rfl

@[simp] theorem raise_cfg (f : FaultCause) (info : Byte) (s : State) : (raise f info s).cfg = s.cfg := rfl
@[simp] theorem raise_eng (f : FaultCause) (info : Byte) (s : State) : (raise f info s).eng = unspecifiedRecord s.unspec := rfl
@[simp] theorem raise_configured (f : FaultCause) (info : Byte) (s : State) : (raise f info s).configured = false := rfl
@[simp] theorem raise_fault (f : FaultCause) (info : Byte) (s : State) : (raise f info s).fault = true := rfl
@[simp] theorem raise_fcause (f : FaultCause) (info : Byte) (s : State) : (raise f info s).fcause = causeCode f := rfl
@[simp] theorem raise_finfo (f : FaultCause) (info : Byte) (s : State) : (raise f info s).finfo = info := rfl
@[simp] theorem raise_asm (f : FaultCause) (info : Byte) (s : State) : (raise f info s).asm = s.asm := rfl
@[simp] theorem raise_out (f : FaultCause) (info : Byte) (s : State) : (raise f info s).out = s.out := rfl
@[simp] theorem raise_port (f : FaultCause) (info : Byte) (s : State) : (raise f info s).port = s.port := rfl
@[simp] theorem raise_taken (f : FaultCause) (info : Byte) (s : State) : (raise f info s).taken = s.taken := rfl
@[simp] theorem raise_unspec (f : FaultCause) (info : Byte) (s : State) : (raise f info s).unspec = s.unspec + 1 := rfl

@[simp] theorem resetEvent_cfg (s : State) : (resetEvent s).cfg = s.cfg := rfl
@[simp] theorem resetEvent_eng (s : State) : (resetEvent s).eng = unspecifiedRecord s.unspec := rfl
@[simp] theorem resetEvent_configured (s : State) : (resetEvent s).configured = false := rfl
@[simp] theorem resetEvent_fault (s : State) : (resetEvent s).fault = false := rfl
@[simp] theorem resetEvent_fcause (s : State) : (resetEvent s).fcause = 0 := rfl
@[simp] theorem resetEvent_finfo (s : State) : (resetEvent s).finfo = 0 := rfl
@[simp] theorem resetEvent_asm (s : State) : (resetEvent s).asm = [] := rfl
@[simp] theorem resetEvent_out (s : State) : (resetEvent s).out = [] := rfl
@[simp] theorem resetEvent_port (s : State) : (resetEvent s).port = s.port := rfl
@[simp] theorem resetEvent_taken (s : State) : (resetEvent s).taken = s.taken := rfl
@[simp] theorem resetEvent_unspec (s : State) : (resetEvent s).unspec = s.unspec + 1 := rfl

@[simp] theorem stepChar_cfg (s : State) : (stepChar s).cfg = s.cfg := rfl
@[simp] theorem stepChar_eng_off (s : State) : (stepChar s).eng.off = steppedOffsets s.cfg s.eng := rfl
@[simp] theorem stepChar_eng_rsel (s : State) : (stepChar s).eng.rsel = s.eng.rsel := rfl
@[simp] theorem stepChar_eng_refsel (s : State) : (stepChar s).eng.refsel = s.eng.refsel := rfl
@[simp] theorem stepChar_eng_pb (s : State) : (stepChar s).eng.pb = s.eng.pb := rfl
@[simp] theorem stepChar_configured (s : State) : (stepChar s).configured = s.configured := rfl
@[simp] theorem stepChar_fault (s : State) : (stepChar s).fault = s.fault := rfl
@[simp] theorem stepChar_fcause (s : State) : (stepChar s).fcause = s.fcause := rfl
@[simp] theorem stepChar_finfo (s : State) : (stepChar s).finfo = s.finfo := rfl
@[simp] theorem stepChar_asm (s : State) : (stepChar s).asm = s.asm := rfl
@[simp] theorem stepChar_out (s : State) : (stepChar s).out = s.out := rfl
@[simp] theorem stepChar_port (s : State) : (stepChar s).port = s.port := rfl
@[simp] theorem stepChar_taken (s : State) : (stepChar s).taken = s.taken := rfl
@[simp] theorem stepChar_unspec (s : State) : (stepChar s).unspec = s.unspec := rfl

@[simp] theorem commit_cfg (e : EngineRecord) (s : State) : (commit e s).cfg = s.cfg := rfl
@[simp] theorem commit_eng (e : EngineRecord) (s : State) : (commit e s).eng = e := rfl
@[simp] theorem commit_configured (e : EngineRecord) (s : State) : (commit e s).configured = true := rfl
@[simp] theorem commit_fault (e : EngineRecord) (s : State) : (commit e s).fault = s.fault := rfl
@[simp] theorem commit_fcause (e : EngineRecord) (s : State) : (commit e s).fcause = s.fcause := rfl
@[simp] theorem commit_finfo (e : EngineRecord) (s : State) : (commit e s).finfo = s.finfo := rfl
@[simp] theorem commit_asm (e : EngineRecord) (s : State) : (commit e s).asm = s.asm := rfl
@[simp] theorem commit_out (e : EngineRecord) (s : State) : (commit e s).out = s.out := rfl
@[simp] theorem commit_port (e : EngineRecord) (s : State) : (commit e s).port = s.port := rfl
@[simp] theorem commit_taken (e : EngineRecord) (s : State) : (commit e s).taken = s.taken := rfl
@[simp] theorem commit_unspec (e : EngineRecord) (s : State) : (commit e s).unspec = s.unspec := rfl

@[simp] theorem presentNext_cfg (bs : List Byte) (s : State) : (presentNext bs s).cfg = s.cfg := rfl
@[simp] theorem presentNext_eng (bs : List Byte) (s : State) : (presentNext bs s).eng = s.eng := rfl
@[simp] theorem presentNext_configured (bs : List Byte) (s : State) : (presentNext bs s).configured = s.configured := rfl
@[simp] theorem presentNext_fault (bs : List Byte) (s : State) : (presentNext bs s).fault = s.fault := rfl
@[simp] theorem presentNext_fcause (bs : List Byte) (s : State) : (presentNext bs s).fcause = s.fcause := rfl
@[simp] theorem presentNext_finfo (bs : List Byte) (s : State) : (presentNext bs s).finfo = s.finfo := rfl
@[simp] theorem presentNext_asm (bs : List Byte) (s : State) : (presentNext bs s).asm = [] := rfl
@[simp] theorem presentNext_out (bs : List Byte) (s : State) : (presentNext bs s).out = s.out := rfl
@[simp] theorem presentNext_port (bs : List Byte) (s : State) : (presentNext bs s).port = bs.map .byte ++ s.port := rfl
@[simp] theorem presentNext_taken (bs : List Byte) (s : State) : (presentNext bs s).taken = s.taken := rfl
@[simp] theorem presentNext_unspec (bs : List Byte) (s : State) : (presentNext bs s).unspec = s.unspec := rfl

@[simp] theorem takeOutput_cfg (s : State) : (takeOutput s).cfg = s.cfg := by
  unfold takeOutput; split <;> rfl
@[simp] theorem takeOutput_eng (s : State) : (takeOutput s).eng = s.eng := by
  unfold takeOutput; split <;> rfl
@[simp] theorem takeOutput_configured (s : State) : (takeOutput s).configured = s.configured := by
  unfold takeOutput; split <;> rfl
@[simp] theorem takeOutput_fault (s : State) : (takeOutput s).fault = s.fault := by
  unfold takeOutput; split <;> rfl
@[simp] theorem takeOutput_fcause (s : State) : (takeOutput s).fcause = s.fcause := by
  unfold takeOutput; split <;> rfl
@[simp] theorem takeOutput_finfo (s : State) : (takeOutput s).finfo = s.finfo := by
  unfold takeOutput; split <;> rfl
@[simp] theorem takeOutput_asm (s : State) : (takeOutput s).asm = s.asm := by
  unfold takeOutput; split <;> rfl
@[simp] theorem takeOutput_port (s : State) : (takeOutput s).port = s.port := by
  unfold takeOutput; split <;> rfl
@[simp] theorem takeOutput_unspec (s : State) : (takeOutput s).unspec = s.unspec := by
  unfold takeOutput; split <;> rfl

/-- Taking moves the oldest byte from the output stream to the host and loses nothing. -/
@[simp] theorem takeOutput_taken_out (s : State) :
    (takeOutput s).taken ++ (takeOutput s).out = s.taken ++ s.out := by
  unfold takeOutput; split <;> simp_all

end Sys2Proof.Machine
end

