-- ==== Sys2Proof/Laws/Ops.lean ====
section
/-! SUPPORT. For each shared operation and each meaning, one lemma that says all it can do when it answers a next
state. Proofs cite these and do not unfold the operations. -/

namespace Sys2Proof.Machine

/-- Two next states are one, in the orientation the lemmas below use. -/
theorem next_eq_next {a t : State} :
    (Host.Outcome.next a : Host.Outcome State Fault Refusal) = .next t ↔ t = a :=
  ⟨fun h => by cases h; rfl, fun h => h ▸ rfl⟩

theorem whenAccepting_next {s t : State} {k : Host.Outcome State Fault Refusal} :
    whenAccepting s k = .next t ↔ s.fault = false ∧ k = .next t := by
  unfold whenAccepting
  split <;> simp_all

theorem whenConfigured_next {op : Byte} {s t : State} {k : Host.Outcome State Fault Refusal} :
    whenConfigured op s k = .next t ↔
      s.fault = false ∧
        (s.configured = true ∧ k = .next t ∨ s.configured = false ∧ t = raise .notConfigured op s) := by
  unfold whenConfigured
  rw [whenAccepting_next]
  by_cases h : s.configured = true
  · simp [h]
  · simp only [h, if_false, Bool.false_eq_true, next_eq_next]
    simp

theorem encipher_next {l : Idx} {s t : State} :
    encipher l s = .next t ↔
      ∃ y, path s.cfg (stepChar s).eng l = some y ∧ t = emit (letterOf y) (stepChar s) := by
  unfold encipher
  split
  · next y h => rw [next_eq_next]; simp [h]
  · next h => simp [h]

theorem execConstruct_next {r : ConfigRecord} {plug : List Byte} {s t : State} :
    execConstruct r plug s = .next t ↔
      s.fault = false ∧
        ((∃ e, checkedRecord r plug = .ok e ∧ t = commit e s) ∨
          ∃ f, checkedRecord r plug = .error f ∧ t = raise f.cause f.info s) := by
  unfold execConstruct
  rw [whenAccepting_next]
  split
  · next e h => rw [next_eq_next]; simp [h]
  · next f h => rw [next_eq_next]; simp [h]

theorem execEncchr_next {c : Byte} {s t : State} :
    execEncchr c s = .next t ↔
      s.fault = false ∧
        ((s.configured = true ∧ ∃ l, letterIdx c = some l ∧ encipher l s = .next t) ∨
          (s.configured = true ∧ letterIdx c = none ∧ t = raise .badSymbol c s) ∨
          (s.configured = false ∧ t = raise .notConfigured 0x02 s)) := by
  unfold execEncchr
  rw [whenConfigured_next]
  split
  · next h => rw [next_eq_next]; simp [h, and_or_left]
  · next l h => simp [h]

theorem messageByte_next {c : Byte} {s t : State} :
    messageByte c s = .next t ↔
      s.fault = false ∧
        ((s.configured = true ∧ isAlpha c = true ∧ ∃ l, letterIdx (toUpper c) = some l ∧ encipher l s = .next t) ∨
          (s.configured = true ∧ isAlpha c = false ∧ t = s) ∨
          (s.configured = false ∧ t = raise .notConfigured 0x03 s)) := by
  unfold messageByte
  rw [whenConfigured_next]
  by_cases h : isAlpha c = true
  · obtain ⟨l, hl⟩ := exists_letterIdx (isUpper_toUpper h)
    simp [h, hl]
  · simp only [h, if_false, Bool.false_eq_true, next_eq_next]
    simp

theorem execStep_next {s t : State} :
    execStep s = .next t ↔
      s.fault = false ∧
        ((s.configured = true ∧ t = stepChar s) ∨ (s.configured = false ∧ t = raise .notConfigured 0x04 s)) := by
  unfold execStep
  rw [whenConfigured_next, next_eq_next]

theorem execRdoff_next {s t : State} :
    execRdoff s = .next t ↔
      s.fault = false ∧
        ((s.configured = true ∧ t = emit (letterOf s.eng.off.right) (emit (letterOf s.eng.off.middle)
            (emit (letterOf s.eng.off.left) s))) ∨
          (s.configured = false ∧ t = raise .notConfigured 0x05 s)) := by
  unfold execRdoff
  rw [whenConfigured_next, next_eq_next]

/-- A property that one message byte keeps, a whole message keeps. -/
theorem messageBytes_induction {Q : State → Prop} (hb : ∀ c s t, Q s → messageByte c s = .next t → Q t)
    (text : List Byte) (s t : State) (hs : Q s) (h : messageBytes text s = .next t) : Q t := by
  induction text generalizing s with
  | nil => simp only [messageBytes, Host.Outcome.next.injEq] at h; exact h ▸ hs
  | cons c cs ih =>
    simp only [messageBytes] at h
    split at h
    · next u hu =>
      have hq := hb c s u hs hu
      split at h
      · simp only [Host.Outcome.next.injEq] at h; exact h ▸ hq
      · exact ih u hq h
    · cases h
    · cases h

/-- What no command touches: the parameters and the host's side of the ports, with the assembler. -/
abbrev HostSideKept (s t : State) : Prop :=
  t.cfg = s.cfg ∧ t.asm = s.asm ∧ t.port = s.port ∧ t.taken = s.taken

theorem encipher_hostSideKept {l : Idx} {s t : State} (h : encipher l s = .next t) : HostSideKept s t := by
  obtain ⟨y, -, rfl⟩ := encipher_next.mp h
  simp [HostSideKept]

theorem messageByte_hostSideKept {c : Byte} {s t : State} (h : messageByte c s = .next t) : HostSideKept s t := by
  obtain ⟨-, ⟨-, -, l, -, hl⟩ | ⟨-, -, rfl⟩ | ⟨-, rfl⟩⟩ := messageByte_next.mp h
  · exact encipher_hostSideKept hl
  · simp [HostSideKept]
  · simp [HostSideKept]

/-- No command touches the parameters, the assembler, the pending events or what the host took. -/
theorem exec_hostSideKept {i : Instr} {s t : State} (h : exec i s = .next t) : HostSideKept s t := by
  cases i with
  | construct r plug => obtain ⟨-, ⟨e, -, rfl⟩ | ⟨f, -, rfl⟩⟩ := execConstruct_next.mp h <;> simp [HostSideKept]
  | encchr c =>
    obtain ⟨-, ⟨-, l, -, hl⟩ | ⟨-, -, rfl⟩ | ⟨-, rfl⟩⟩ := execEncchr_next.mp h
    · exact encipher_hostSideKept hl
    · simp [HostSideKept]
    · simp [HostSideKept]
  | msgchr c => exact messageByte_hostSideKept h
  | step => obtain ⟨-, ⟨-, rfl⟩ | ⟨-, rfl⟩⟩ := execStep_next.mp h <;> simp [HostSideKept]
  | rdoff => obtain ⟨-, ⟨-, rfl⟩ | ⟨-, rfl⟩⟩ := execRdoff_next.mp h <;> simp [HostSideKept]
  | encmsg text =>
    exact messageBytes_induction (Q := HostSideKept s)
      (fun c u v hu hv => by
        have := messageByte_hostSideKept hv
        simp_all [HostSideKept])
      text s t (by simp [HostSideKept]) h

/-- What one step can be: idle, reset, a taking, a byte that lapses in FAULTED, a command run, an illegal opcode byte, or
bytes that wait. -/
theorem step_next {s t : State} (h : step s = .next t) :
    (s.port = [] ∧ t = s) ∨
    (∃ rest, s.port = .reset :: rest ∧ t = resetEvent { s with port := rest }) ∨
    (∃ rest, s.port = .take :: rest ∧ t = takeOutput { s with port := rest }) ∨
    (∃ b rest, s.port = .byte b :: rest ∧ s.fault = true ∧ t = { s with port := rest }) ∨
    (∃ i more, s.fault = false ∧ decode (s.asm ++ leadingBytes s.port) = .command i more ∧
      exec i { s with asm := [], port := more.map .byte ++ afterBytes s.port } = .next t) ∨
    (∃ op more, s.fault = false ∧ decode (s.asm ++ leadingBytes s.port) = .illegal op more ∧
      t = raise .illegalCommand op { s with asm := [], port := more.map .byte ++ afterBytes s.port }) ∨
    (s.fault = false ∧ decode (s.asm ++ leadingBytes s.port) = .incomplete ∧
      t = { s with asm := s.asm ++ leadingBytes s.port, port := afterBytes s.port }) := by
  unfold step portStep at h
  split at h
  · next hp => rw [next_eq_next] at h; simp_all
  · next rest hp => rw [next_eq_next] at h; simp_all
  · next rest hp => rw [next_eq_next] at h; simp_all
  · next b rest hp =>
    split at h
    · next hf => rw [next_eq_next] at h; simp_all
    · next hf =>
      unfold acceptBytes at h
      split at h
      · next i more hd => exact .inr (.inr (.inr (.inr (.inl ⟨i, more, by simpa using hf, hd, h⟩))))
      · next op more hd =>
        rw [next_eq_next] at h
        exact .inr (.inr (.inr (.inr (.inr (.inl ⟨op, more, by simpa using hf, hd, h⟩)))))
      · next hd =>
        rw [next_eq_next] at h
        exact .inr (.inr (.inr (.inr (.inr (.inr ⟨by simpa using hf, hd, h⟩)))))

end Sys2Proof.Machine
end

