-- ==== Sys2Proof/Laws/PerInstr.lean ====
section
/-! SUPPORT. A statement for every command, one lemma a constructor: how long its encoding is and what its first byte
is (`30_encoding.md` R53 to R57, R62). -/

namespace Sys2Proof.Laws.EncodingLength

/-- The opcode byte that begins a command; the pseudo-instruction has none of its own, and its encoding begins with
MSGCHR's when the text is not empty (R56, R62). -/
def leadingOpcode : Instr → Option Byte
  | .construct _ _ => some 0x01
  | .encchr _ => some 0x02
  | .msgchr _ => some 0x03
  | .step => some 0x04
  | .rdoff => some 0x05
  | .encmsg text => if text.isEmpty then none else some 0x03

/-- A command's encoding has the length its format gives and begins with its opcode byte. -/
def Statement (i : Instr) : Prop := (encode i).length = encodedLength i ∧ (encode i).head? = leadingOpcode i

theorem construct (r : ConfigRecord) (plug : List Byte) : Statement (.construct r plug) := by
  simp [Statement, encode, encodedLength, leadingOpcode, recordBytes]
  omega

theorem encchr (c : Byte) : Statement (.encchr c) := by simp [Statement, encode, encodedLength, leadingOpcode]

theorem msgchr (c : Byte) : Statement (.msgchr c) := by simp [Statement, encode, encodedLength, leadingOpcode]

theorem step : Statement .step := by simp [Statement, encode, encodedLength, leadingOpcode]

theorem rdoff : Statement .rdoff := by simp [Statement, encode, encodedLength, leadingOpcode]

theorem encmsg (text : List Byte) : Statement (.encmsg text) := by
  cases text with
  | nil => simp [Statement, encode, encodedLength, leadingOpcode]
  | cons c cs => simp [Statement, encode, encodedLength, leadingOpcode]; omega

end Sys2Proof.Laws.EncodingLength
end

