-- ==== Sys2Proof/Laws/Pipeline.lean ====
section
/-! SUPPORT. The inverse lookup and the stages of the signal path. -/

namespace Sys2Proof.Machine

theorem slotWiring_read (P : Params) (e : EngineRecord) (i : Slot) (p : Idx) :
    readRotw P (bankAt e.rsel i) p = (slotWiring P e i)[p] := rfl

theorem positionOf_some {w : Table} {s p : Idx} (h : positionOf w s = some p) : w[p] = s := by
  simpa using List.find?_some h

/-- The premise as a property of the table read as a function. -/
theorem injective_of_isPermutation {w : Table} (h : isPermutation w = true) :
    Function.Injective (fun p : Idx => w[p]) := by
  have hnd : w.toList.Nodup := by
    rw [List.nodup_iff_count_le_one]
    intro a
    simp only [isPermutation, List.all_eq_true, List.mem_finRange, true_implies, beq_iff_eq] at h
    exact (h a).le
  intro p q hpq
  have hp : w.toList[p.val]'(by simp) = w.toList[q.val]'(by simp) := by simpa using hpq
  exact Fin.ext ((List.Nodup.getElem_inj_iff hnd).mp hp)

/-- Under the premise every symbol is stored somewhere. -/
theorem surjective_of_isPermutation {w : Table} (h : isPermutation w = true) :
    Function.Surjective (fun p : Idx => w[p]) :=
  Finite.surjective_of_injective (injective_of_isPermutation h)

/-- Under the premise the inverse lookup of `s` is the one position that stores `s` (`20_memory.md` R34). -/
theorem inverseLookup_eq_some_iff {w : Table} (h : isPermutation w = true) (s p : Idx) :
    inverseLookup w s = some p ↔ w[p] = s := by
  simp only [inverseLookup, h, if_true]
  refine ⟨positionOf_some, fun hp => ?_⟩
  cases hq : positionOf w s with
  | some q =>
    have := positionOf_some hq
    exact congrArg some (injective_of_isPermutation h (this.trans hp.symm))
  | none =>
    have := List.find?_eq_none.mp hq p (List.mem_finRange p)
    simp [hp] at this

/-- Without the premise it has no value. -/
theorem inverseLookup_of_not {w : Table} (h : isPermutation w = false) (s : Idx) : inverseLookup w s = none := by
  simp [inverseLookup, h]

/-- What one backward rotor does when its wiring meets the premise (R90). -/
theorem bwd1_eq_some_iff {P : Params} {e : EngineRecord} {i : Slot} (h : isPermutation (slotWiring P e i) = true)
    (l m : Idx) :
    bwd1 P e i l = some m ↔ (slotWiring P e i)[addMod m (bankAt e.off i)] = addMod l (bankAt e.off i) := by
  simp only [bwd1, Option.map_eq_some_iff, inverseLookup_eq_some_iff h]
  constructor
  · rintro ⟨p, hp, rfl⟩
    simpa using hp
  · intro hm
    exact ⟨_, hm, by simp⟩

/-- The wiring and the offset of a slot, found from what its registers hold. -/
theorem slotWiring_of_slotHolds {P : Params} {e : EngineRecord} {i : Slot} {sel : RotorSel} {o : Idx} {k : Fin 5}
    (hs : slotHolds e i sel o) (hk : k.val + 1 = rotorValue sel) :
    slotWiring P e i = P.rotorWiring[k] ∧ bankAt e.off i = o := by
  have hr := rotorRow_eq_of_value hk
  cases i <;> (obtain ⟨rfl, rfl⟩ := hs; subst hr; exact ⟨rfl, rfl⟩)

end Sys2Proof.Machine
end

