-- ==== Sys2Proof/Tests/Slice0.lean ====
section
/-! SUPPORT. Small tests with results from `95_test_vectors.md` and the worked examples of the rules, and for every
statement with hypotheses a witness that meets them. -/

namespace Sys2Proof.Tests

open Sys2Proof.Machine

/- Helpers. -/

/-- The outcome is a next state with a property. -/
def answers (o : Host.Outcome State Fault Refusal) (p : State → Bool) : Bool :=
  match o with
  | .next t => p t
  | .fault _ => false
  | .refused _ => false

theorem exists_of_answers {o : Host.Outcome State Fault Refusal} {p : State → Bool} (h : answers o p = true) :
    ∃ t, o = .next t ∧ p t = true := by
  cases o with
  | next t => exact ⟨t, rfl, h⟩
  | fault _ => exact absurd h (by simp [answers])
  | refused _ => exact absurd h (by simp [answers])

/-- The plugboard `AB,CD,EF` (V1). -/
def pbABCDEF : Table :=
  #v[1, 0, 3, 2, 5, 4, 6, 7, 8, 9, 10, 11, 12, 13, 14, 15, 16, 17, 18, 19, 20, 21, 22, 23, 24, 25]

/-- Reflector B, rotors 1, 2, 3, plugboard `AB,CD,EF`, at the given offsets. -/
def engineAt (l m r : Idx) : EngineRecord := ⟨.b, ⟨.one, .two, .three⟩, ⟨l, m, r⟩, pbABCDEF⟩

/-- Reflector C, rotors 5, 4, 1, plugboard `QW,ER,TY,UI,OP` (V13), at the given offsets. -/
def engineC541 (l m r : Idx) : EngineRecord :=
  ⟨.c, ⟨.five, .four, .one⟩, ⟨l, m, r⟩,
    #v[0, 1, 2, 3, 17, 5, 6, 7, 20, 9, 10, 11, 12, 13, 15, 14, 22, 4, 18, 24, 8, 21, 16, 23, 19, 25]⟩

/-- A READY engine at the given offsets. -/
def readyAt (l m r : Idx) : State := { State.reset with eng := engineAt l m r, configured := true }

/-- An engine that stopped on BadSymbol 0x61, with one untaken byte. -/
def stopped : State := { State.reset with fault := true, fcause := 6, finfo := 0x61, out := [0x44] }

/-- The record `B123AAA`. -/
def recB123AAA : ConfigRecord := ⟨0x42, 0x31, 0x32, 0x33, 0x41, 0x41, 0x41⟩

/-- The bytes of `AB,CD,EF`. -/
def plugABCDEF : List Byte := [0x41, 0x42, 0x2C, 0x43, 0x44, 0x2C, 0x45, 0x46]

/- WellFormed: the one check refuses a plugboard string that holds the terminator (R55). -/

theorem test_wellFormed_refuses_nul_in_plug : (Instr.construct recB123AAA [0x41, 0x00, 0x42]).wellFormed = false := by
  decide

theorem test_wellFormed_takes_any_other : (Instr.construct ⟨0, 0, 0, 0, 0, 0, 0⟩ [0x01, 0xFF]).wellFormed = true := by
  decide

/- Decode: words written out from R53 to R56 and V17. -/

theorem test_decode_construct :
    decode [0x01, 0x42, 0x31, 0x32, 0x33, 0x41, 0x41, 0x41, 0x41, 0x42, 0x2C, 0x43, 0x44, 0x2C, 0x45, 0x46, 0x00] =
      .command (.construct recB123AAA plugABCDEF) [] := by decide

/-- V17 row 17: a NUL inside the record does not end the command. -/
theorem test_decode_construct_nul_in_record :
    decode [0x01, 0x42, 0x31, 0x32, 0x00, 0x41, 0x41, 0x41, 0x00, 0x05] =
      .command (.construct ⟨0x42, 0x31, 0x32, 0x00, 0x41, 0x41, 0x41⟩ []) [0x05] := by decide

theorem test_decode_encchr : decode [0x02, 0x41] = .command (.encchr 0x41) [] := by decide

theorem test_decode_msgchr : decode [0x03, 0x00, 0x04] = .command (.msgchr 0x00) [0x04] := by decide

theorem test_decode_step : decode [0x04] = .command .step [] := by decide

theorem test_decode_rdoff : decode [0x05] = .command .rdoff [] := by decide

theorem test_decode_illegal : decode [0xFF, 0x02] = .illegal 0xFF [0x02] := by decide

theorem test_decode_incomplete :
    decode [0x01, 0x42, 0x31, 0x32, 0x33, 0x41, 0x41, 0x41, 0x41] = .incomplete := by decide

/-- The opcode table numbers the operand byte of Format B as bits 15..8. -/
theorem test_tableWord_encchr : decodeTableWord 16 0x5302 = some (.encchr 0x53) := by decide

theorem test_tableWord_construct : decodeTableWord 8 0x01 = some (.construct ⟨0, 0, 0, 0, 0, 0, 0⟩ []) := by decide

/- CONSTRUCT: V1, V2 and V17. -/

theorem test_construct_v1 :
    answers (exec (.construct recB123AAA plugABCDEF) State.reset)
      (fun t => t.eng == engineAt 0 0 0 && t.configured && !t.fault && t.out == []) = true := by decide

/-- V17 row 8: the first bad byte wins. -/
theorem test_construct_priority :
    answers (exec (.construct ⟨0x44, 0x39, 0x32, 0x33, 0x61, 0x41, 0x41⟩ [0x61, 0x31]) State.reset)
      (fun t => t.fault && t.fcause == 1 && t.finfo == 0x44 && !t.configured) = true := by decide

/-- V2 row 9: `AB,BC` gives A to B, B to C, C to B. -/
theorem test_plugboard_last_write :
    (match buildPlugboard [0x41, 0x42, 0x2C, 0x42, 0x43] with
     | .ok pb => (pb.toList.take 4) == [1, 2, 1, 3]
     | .error _ => false) = true := by decide

/-- V2 row 11: `a,abc,1,A1B,AB` gives A and B only, and no fault. -/
theorem test_plugboard_dropped_tokens :
    (match buildPlugboard [0x61, 0x2C, 0x61, 0x62, 0x63, 0x2C, 0x31, 0x2C, 0x41, 0x31, 0x42, 0x2C, 0x41, 0x42] with
     | .ok pb => (pb.toList.take 4) == [1, 0, 2, 3]
     | .error _ => false) = true := by decide

/- The stepper: V6 with the notches 4 and 21. -/

theorem test_stepOnce_double_carry : stepOnce 4 21 ⟨0, 3, 20⟩ = ⟨1, 4, 21⟩ := by decide

theorem test_stepOnce_leaves_notch : stepOnce 4 21 ⟨0, 4, 20⟩ = ⟨0, 5, 21⟩ := by decide

/-- P3: `ADT` to `BEV`. -/
theorem test_step_carries :
    answers (exec .step (readyAt 0 3 19)) (fun t => t.eng.off == ⟨1, 4, 21⟩ && t.out == []) = true := by decide

/-- V17 row 4. -/
theorem test_step_not_configured :
    answers (exec .step State.reset) (fun t => t.fault && t.fcause == 5 && t.finfo == 0x04) = true := by decide

/- The signal path: V7. -/

/-- V7: rotor 3 at offset 25 gives 17 for 25. -/
theorem test_fwd1_wraps : fwd1 defaultParams (engineAt 0 0 25) .right 25 = 17 := by decide

/-- V7: rotor 3 at offset 2 takes 8 back to 18. -/
theorem test_bwd1_inverse : bwd1 defaultParams (engineAt 0 0 2) .right 8 = some 18 := by decide

/- ENCCHR, MSGCHR, ENCMSG, RDOFF. -/

/-- R100: at `AAC` the letter `S` gives `X`. -/
theorem test_encchr_s :
    answers (exec (.encchr 0x53) (readyAt 0 0 0)) (fun t => t.out == [0x58] && t.eng.off == ⟨0, 0, 2⟩) = true := by
  decide

/-- V13: rotors 5, 4, 1 and reflector C, `H` at `QEV` to `QEX` gives `C`. -/
theorem test_encchr_other_rotors :
    answers (exec (.encchr 0x48) { readyAt 0 0 0 with eng := engineC541 16 4 21 })
      (fun t => t.out == [0x43] && t.eng.off == ⟨16, 4, 23⟩) = true := by decide

/-- V17 row 18: a lowercase letter faults. -/
theorem test_encchr_lowercase :
    answers (exec (.encchr 0x61) (readyAt 0 0 2)) (fun t => t.fault && t.fcause == 6 && t.finfo == 0x61 && t.out == [])
      = true := by decide

/-- V3 row 7: `t` at `AAM` to `AAO` gives `B` through the second plugboard swap. -/
theorem test_msgchr_folds :
    answers (exec (.msgchr 0x74) (readyAt 0 0 12)) (fun t => t.out == [0x42] && t.eng.off == ⟨0, 0, 14⟩) = true := by
  decide

/-- V14: reflector A, rotor 1 three times, `a` at `ZZZ` to `ZZB` gives `K`. -/
theorem test_msgchr_reflector_a :
    answers (exec (.msgchr 0x61)
        { readyAt 0 0 0 with eng := ⟨.a, ⟨.one, .one, .one⟩, ⟨25, 25, 25⟩, identityTable⟩ })
      (fun t => t.out == [0x4B] && t.eng.off == ⟨25, 25, 1⟩) = true := by decide

/-- V15: 0x60, the byte below `a`, is dropped. -/
theorem test_msgchr_drops :
    answers (exec (.msgchr 0x60) (readyAt 0 0 12)) (fun t => t.out == [] && t.eng.off == ⟨0, 0, 12⟩) = true := by decide

/-- V11: `AB` gives `JG` and leaves `AAE`. -/
theorem test_encmsg_ab :
    answers (exec (.encmsg [0x41, 0x42]) (readyAt 0 0 0)) (fun t => t.out == [0x4A, 0x47] && t.eng.off == ⟨0, 0, 4⟩)
      = true := by decide +kernel

/-- R105: after a fault on the first byte the rest are not accepted. -/
theorem test_encmsg_not_configured :
    answers (exec (.encmsg [0x41, 0x42]) State.reset) (fun t => t.fault && t.fcause == 5 && t.finfo == 0x03) = true := by
  decide

theorem test_rdoff_emits :
    answers (exec .rdoff (readyAt 1 4 21)) (fun t => t.out == [0x42, 0x45, 0x56] && t.eng.off == ⟨1, 4, 21⟩) = true := by
  decide

/- Steps at the ports. -/

theorem test_withFetchWord_runs_first :
    answers (step (State.reset.withFetchWord 16 0x4102)) (fun t => t.fcause == 5 && t.finfo == 0x02 && t.port == [])
      = true := by decide

theorem test_illegal_opcode :
    answers (step { readyAt 0 0 0 with port := [.byte 0xFF, .byte 0x02] })
      (fun t => t.fcause == 7 && t.finfo == 0xFF && t.port == [.byte 0x02]) = true := by decide

/-- V17 row 6: the script of the bare byte 0x06. -/
theorem test_script_bare_byte :
    (match runScript [.byte 0x06] State.reset with
     | some t => t.fault && t.fcause == 7 && t.finfo == 0x06 && t.out == []
     | none => false) = true := by decide

/-- V17 row 19: a bare byte 0xFF after a CONSTRUCT, and a command that is never accepted. -/
theorem test_script_bare_byte_stops :
    (match runScript [.command (.construct recB123AAA [0x41, 0x42]), .byte 0xFF, .command (.encchr 0x41)] State.reset with
     | some t => t.fault && t.fcause == 7 && t.finfo == 0xFF && t.out == [] && t.asm == []
     | none => false) = true := by decide +kernel

/-- P5: the byte presented to a FAULTED engine is never accepted. -/
theorem test_faulted_byte_lapses :
    answers (step { stopped with port := [.byte 0x02, .reset] })
      (fun t => t.fault && t.fcause == 6 && t.asm == [] && t.port == [.reset]) = true := by decide

/-- The default tables spelt as in R35 and R36, one letter of each row, `Z`. -/
theorem test_tables_last_letter :
    (defaultParams.rotorWiring.toList ++ defaultParams.reflectorWiring.toList).map (fun w => letterOf w[25]) =
      [0x4A, 0x45, 0x4F, 0x42, 0x4B, 0x44, 0x54, 0x4C] := by decide

/- Witnesses: values that meet the hypotheses of each statement, a boundary value for each clause. -/

theorem identity_slots (l m r : Idx) : slotsBijective defaultParams (engineAt l m r) := by
  intro i
  cases i
  · show isPermutation rotorOne = true; decide +kernel
  · show isPermutation rotorTwo = true; decide +kernel
  · show isPermutation rotorThree = true; decide +kernel

theorem engine_reciprocal (l m r : Idx) : reciprocal defaultParams (engineAt l m r) := by
  refine ⟨identity_slots l m r, ?_, ?_⟩
  · show Involutive pbABCDEF; decide +kernel
  · show Involutive reflectorB; decide +kernel

/-- ResetEventClears: a reset between the bytes of a command, a reset in FAULTED, and a step in FAULTED with no reset. -/
theorem witness_ResetEventClears :
    ({ readyAt 0 0 0 with asm := [0x02], port := [.reset] } : State).port = .reset :: [] ∧
    ({ stopped with port := [.reset] } : State).port = .reset :: [] ∧
    stopped.fault = true ∧ answers (step { stopped with port := [.take] }) (fun _ => true) = true ∧
    ({ stopped with port := [.take] } : State).port.head? ≠ some .reset := by decide

theorem witness_StepRunsDecodedCommand :
    (readyAt 0 0 0).fault = false ∧
    decode ([0x02] ++ leadingBytes [.byte 0x41, .byte 0x05]) = .command (.encchr 0x41) [0x05] := by decide

theorem witness_StepRunsSentCommand :
    State.reset.fault = false ∧ State.reset.asm = [] ∧ (Instr.construct recB123AAA plugABCDEF).wellFormed = true ∧
    (∀ text, Instr.construct recB123AAA plugABCDEF ≠ .encmsg text) ∧
    ({ State.reset with port := (encode (.construct recB123AAA plugABCDEF)).map .byte ++ [.byte 0x05] } : State).port =
      (encode (.construct recB123AAA plugABCDEF)).map .byte ++ [.byte 0x05] :=
  ⟨rfl, rfl, by decide, by simp, rfl⟩

theorem witness_StepRunsPlacedWord : State.reset.fault = false ∧ decodeTableWord 8 0x04 = some .step := by decide

/-- IllegalOpcodeFaults: both ends of the illegal range and 0x00. -/
theorem witness_IllegalOpcodeFaults :
    ∀ op ∈ ([0x00, 0x06, 0xFF] : List Byte), op ∉ ([0x01, 0x02, 0x03, 0x04, 0x05] : List Byte) ∧
      ({ readyAt 0 0 0 with port := [.byte op] } : State).asm = [] ∧ (readyAt 0 0 0).fault = false := by decide

theorem witness_PartialCommandOnlyWaits :
    (readyAt 0 0 0).fault = false ∧ decode ((readyAt 0 0 0).asm ++ leadingBytes [.byte 0x02, .take]) = .incomplete := by
  decide

theorem witness_SplitBytesGiveTheSame :
    (readyAt 0 0 0).fault = false ∧ decode ((readyAt 0 0 0).asm ++ [0x01, 0x42]) = .incomplete ∧
    ([0x31] : List Byte) ≠ [] ∧ decode ((readyAt 0 0 0).asm ++ []) = .incomplete := by decide

theorem witness_DecodeOfEncode :
    (Instr.construct recB123AAA []).wellFormed = true ∧ (∀ text, Instr.construct recB123AAA [] ≠ .encmsg text) ∧
    Instr.step.wellFormed = true ∧ (∀ text, Instr.step ≠ .encmsg text) :=
  ⟨by decide, by simp, by decide, by simp⟩

theorem witness_EncodeOfDecode : decode [0x03, 0xC9, 0x00] = .command (.msgchr 0xC9) [0x00] := by decide

/-- ConstructCommits: both ends of every range of the record, and an empty plugboard string. -/
theorem witness_ConstructCommits :
    State.reset.fault = false ∧ firstFault ⟨0x41, 0x31, 0x31, 0x35, 0x41, 0x5A, 0x4D⟩ [] = none ∧
    firstFault ⟨0x43, 0x35, 0x35, 0x31, 0x5A, 0x41, 0x5A⟩ [0x41, 0x5A, 0x2C, 0x61] = none := by decide

/-- ConstructFaultsInOrder: each cause just outside its range. -/
theorem witness_ConstructFaultsInOrder :
    State.reset.fault = false ∧
    firstFault ⟨0x40, 0x30, 0x31, 0x31, 0x41, 0x41, 0x41⟩ [] = some (1, 0x40) ∧
    firstFault ⟨0x44, 0x31, 0x31, 0x31, 0x41, 0x41, 0x41⟩ [] = some (1, 0x44) ∧
    firstFault ⟨0x41, 0x31, 0x30, 0x36, 0x41, 0x41, 0x41⟩ [] = some (2, 0x30) ∧
    firstFault ⟨0x41, 0x31, 0x31, 0x36, 0x40, 0x41, 0x41⟩ [] = some (2, 0x36) ∧
    firstFault ⟨0x41, 0x31, 0x31, 0x31, 0x41, 0x40, 0x41⟩ [] = some (3, 0x40) ∧
    firstFault ⟨0x41, 0x31, 0x31, 0x31, 0x41, 0x41, 0x5B⟩ [0x61, 0x61] = some (3, 0x5B) ∧
    firstFault ⟨0x41, 0x31, 0x31, 0x31, 0x41, 0x41, 0x41⟩ [0x41, 0x5B] = some (4, 0x5B) := by decide

/-- ConstructFrame: a CONSTRUCT that succeeds and one that faults. -/
theorem witness_ConstructFrame :
    (∃ t, exec (.construct recB123AAA []) (readyAt 0 0 0) = .next t ∧ t.configured = true) ∧
    ∃ t, exec (.construct recB123AAA [0x61, 0x61]) (readyAt 0 0 0) = .next t ∧ (!t.configured) = true :=
  ⟨exists_of_answers (by decide), exists_of_answers (by decide)⟩

theorem witness_ConstructForgetsPreviousEngine :
    (∃ t, exec (.construct recB123AAA plugABCDEF) (readyAt 1 2 3) = .next t ∧ t.configured = true) ∧
    ∃ t, exec (.construct recB123AAA plugABCDEF) State.reset = .next t ∧ t.configured = true :=
  ⟨exists_of_answers (by decide), exists_of_answers (by decide)⟩

/-- PlugboardIsInvolution: three pairs, and a string with a letter paired with itself (`AA,BC`). -/
theorem witness_PlugboardIsInvolution :
    ((∃ pb, buildPlugboard plugABCDEF = .ok pb) ∧ lettersInOnePair plugABCDEF ∧
      (movingPairs plugABCDEF).length = 3) ∧
    (∃ pb, buildPlugboard [0x41, 0x41, 0x2C, 0x42, 0x43] = .ok pb) ∧
    lettersInOnePair [0x41, 0x41, 0x2C, 0x42, 0x43] ∧
    (movingPairs [0x41, 0x41, 0x2C, 0x42, 0x43]).length = 1 :=
  ⟨⟨⟨_, rfl⟩, by decide +kernel, by decide⟩, ⟨_, rfl⟩, by decide +kernel, by decide⟩

theorem witness_MalformedTokensAreDropped :
    (tokens [0x41, 0x2C, 0x42, 0x43, 0x2C, 0x44, 0x45, 0x46]).filter (fun t => t.length == 2) =
      (tokens [0x42, 0x43]).filter (fun t => t.length == 2) := by decide

/-- StepOnceCarries: no carry, a carry, a double carry. -/
theorem witness_StepOnceCarries :
    (stepOnce 4 21 ⟨0, 0, 25⟩).right ≠ 21 ∧ (stepOnce 4 21 ⟨0, 25, 20⟩).right = 21 ∧
    (stepOnce 4 21 ⟨0, 25, 20⟩).middle ≠ 4 ∧
    ((stepOnce 4 21 ⟨25, 3, 20⟩).right = 21 ∧ (stepOnce 4 21 ⟨25, 3, 20⟩).middle = 4) := by decide

/-- StepcharRepeatsStepOnce: both contracts, and the first and the last row of the notch table. -/
theorem witness_StepcharRepeatsStepOnce :
    (0 : Fin 5).val + 1 = rotorValue (engineC541 0 0 0).rsel.right ∧
    (3 : Fin 5).val + 1 = rotorValue (engineC541 0 0 0).rsel.middle ∧
    (4 : Fin 5).val + 1 = rotorValue (engineC541 0 0 0).rsel.left ∧
    ({ defaultParams with stepsPerChar := .single } : Params).stepsPerChar = .single ∧
    defaultParams.stepsPerChar = .double := by decide

/-- DoubleStepCarriesOnce: a carry in each of the two applications, none, and a carry that lands on the middle notch. -/
theorem witness_DoubleStepCarriesOnce :
    (21 : Idx).val = ((20 : Idx).val + 1) % 26 ∧ (21 : Idx).val = ((19 : Idx).val + 2) % 26 ∧
    ¬((21 : Idx).val = ((21 : Idx).val + 1) % 26 ∨ (21 : Idx).val = ((21 : Idx).val + 2) % 26) ∧
    (stepTimes 4 21 2 ⟨0, 3, 19⟩).middle = 4 ∧ (stepTimes 4 21 2 ⟨0, 4, 20⟩).middle ≠ 4 := by decide

/-- StepRunsStepchar: READY, UNCONFIGURED, and a letter enciphered. -/
theorem witness_StepRunsStepchar :
    (readyAt 0 3 19).Ready ∧ (State.reset.fault = false ∧ State.reset.configured = false) ∧
    isUpper 0x5A = true ∧ ∃ t, exec (.encchr 0x5A) (readyAt 0 3 19) = .next t ∧ true = true :=
  ⟨by decide, by decide, by decide, exists_of_answers (p := fun _ => true) (by decide)⟩

theorem witness_SteppingIgnoresTheLetter :
    (readyAt 0 0 0).Ready ∧ isUpper 0x41 = true ∧ isAlpha 0x7A = true ∧
    (∃ t, exec (.encchr 0x41) (readyAt 0 0 0) = .next t ∧ true = true) ∧
    (∃ t, exec (.msgchr 0x7A) (readyAt 0 0 0) = .next t ∧ true = true) ∧
    ∃ t, exec .step (readyAt 0 0 0) = .next t ∧ true = true :=
  ⟨by decide, by decide, by decide, exists_of_answers (p := fun _ => true) (by decide),
    exists_of_answers (p := fun _ => true) (by decide), exists_of_answers (p := fun _ => true) (by decide)⟩

/-- ForwardRotorRule: V7's wrapping row of rotor 3, position 24, and its row of rotor 5, position 20. -/
theorem witness_ForwardRotorRule :
    (slotHolds (engineAt 0 0 25) .right .three 25 ∧ (2 : Fin 5).val + 1 = rotorValue .three ∧
      (24 : Idx).val = ((25 : Idx).val + (25 : Idx).val) % 26) ∧
    slotHolds (engineC541 13 0 0) .left .five 13 ∧ (4 : Fin 5).val + 1 = rotorValue .five ∧
    (20 : Idx).val = ((7 : Idx).val + (13 : Idx).val) % 26 := by decide

/-- BackwardRotorRule: R100 step 4c, symbol 14 at position 25. -/
theorem witness_BackwardRotorRule :
    slotHolds (engineAt 0 0 2) .right .three 2 ∧ (2 : Fin 5).val + 1 = rotorValue .three ∧
    isPermutation defaultParams.rotorWiring[(2 : Fin 5)] = true ∧
    ((defaultParams.rotorWiring[(2 : Fin 5)])[(25 : Idx)]).val = ((12 : Idx).val + (2 : Idx).val) % 26 :=
  ⟨by decide, by decide, identity_slots 0 0 2 .right, by decide⟩

/-- PathStagesInOrder: the first and the last row of the reflector table. -/
theorem witness_PathStagesInOrder :
    (0 : Fin 3).val = reflectorValue .a ∧ (2 : Fin 3).val = reflectorValue (engineC541 0 0 0).refsel := by decide

theorem witness_BackwardInvertsForward : slotsBijective defaultParams (engineAt 25 0 13) := identity_slots 25 0 13

theorem witness_PathIsPermutation :
    slotsBijective defaultParams (engineAt 0 0 2) ∧ isPermutation (engineAt 0 0 2).pb = true ∧
    isPermutation (defaultParams.reflectorWiring[reflectorRow (engineAt 0 0 2).refsel]) = true :=
  ⟨identity_slots 0 0 2, by decide +kernel, by decide +kernel⟩

theorem witness_PathIsInvolution : reciprocal defaultParams (engineAt 0 0 2) := engine_reciprocal 0 0 2

theorem witness_NoLetterEnciphersToItself :
    reciprocal defaultParams (engineAt 0 0 2) ∧
    ∀ p : Idx, (defaultParams.reflectorWiring[reflectorRow (engineAt 0 0 2).refsel])[p] ≠ p :=
  ⟨engine_reciprocal 0 0 2, by decide +kernel⟩

/-- EncchrEnciphers: both ends of the letters, both neighbours, and UNCONFIGURED. -/
theorem witness_EncchrEnciphers :
    (readyAt 0 0 0).Ready ∧ slotsBijective (readyAt 0 0 0).cfg (readyAt 0 0 0).eng ∧
    (isUpper 0x41 = true ∧ (0 : Idx).val = (0x41 : Byte).toNat - 0x41) ∧
    (isUpper 0x5A = true ∧ (25 : Idx).val = (0x5A : Byte).toNat - 0x41) ∧
    isUpper 0x40 = false ∧ isUpper 0x5B = false ∧ State.reset.fault = false ∧ State.reset.configured = false :=
  ⟨by decide, identity_slots 0 0 0, by decide, by decide, by decide, by decide, by decide, by decide⟩

/-- MsgchrFiltersAndEnciphers: both ends of the lowercase letters, the neighbours of both ranges, and UNCONFIGURED. -/
theorem witness_MsgchrFiltersAndEnciphers :
    (readyAt 0 0 0).Ready ∧ slotsBijective (readyAt 0 0 0).cfg (readyAt 0 0 0).eng ∧
    (isAlpha 0x61 = true ∧ (0 : Idx).val = (toUpper 0x61).toNat - 0x41) ∧
    (isAlpha 0x7A = true ∧ (25 : Idx).val = (toUpper 0x7A).toNat - 0x41) ∧
    isAlpha 0x40 = false ∧ isAlpha 0x5B = false ∧ isAlpha 0x60 = false ∧ isAlpha 0x7B = false ∧
    isAlpha 0xC9 = false ∧ State.reset.fault = false ∧ State.reset.configured = false :=
  ⟨by decide, identity_slots 0 0 0, by decide, by decide, by decide, by decide, by decide, by decide, by decide,
    by decide, by decide⟩

theorem witness_MessageCaseIsFolded : (readyAt 0 0 0).configured = true ∧ isUpper 0x5A = true := by decide

theorem witness_RdoffEmitsOffsets :
    (readyAt 25 0 13).Ready ∧ (State.reset.fault = false ∧ State.reset.configured = false) ∧
    ∃ t, exec (.construct ⟨0x42, 0x31, 0x32, 0x33, 0x51, 0x45, 0x5A⟩ []) State.reset = .next t ∧ t.configured = true :=
  ⟨by decide, by decide, exists_of_answers (by decide)⟩

theorem witness_EncmsgEnciphersTheLetters :
    (readyAt 0 0 0).Ready ∧ slotsBijective (readyAt 0 0 0).cfg (readyAt 0 0 0).eng :=
  ⟨by decide, identity_slots 0 0 0⟩

theorem witness_MessagesConcatenate :
    (readyAt 0 0 0).Ready ∧ ∃ t, exec (.encmsg [0x41, 0x2C]) (readyAt 0 0 0) = .next t ∧ true = true :=
  ⟨by decide, exists_of_answers (p := fun _ => true) (by decide)⟩

theorem witness_EncmsgRunsAsItsCommands : (readyAt 0 0 0).Ready ∧ (readyAt 0 0 0).asm = [] := by decide

theorem witness_CharactersAreReciprocal :
    (readyAt 0 0 0).Ready ∧ ({ readyAt 0 0 0 with out := [0x41] } : State).Ready ∧
    reciprocal (readyAt 0 0 0).cfg (readyAt 0 0 0).eng ∧ isUpper 0x53 = true ∧ isUpper 0x58 = true :=
  ⟨by decide, by decide, engine_reciprocal 0 0 0, by decide, by decide⟩

/-- MessagesAreReciprocal: the engine that `CONSTRUCT "B123AAA", "AB,CD,EF"` builds meets the premises (V1). -/
theorem witness_MessagesAreReciprocal :
    ∃ s1, exec (.construct recB123AAA plugABCDEF) State.reset = .next s1 ∧ s1.configured = true ∧
      reciprocal s1.cfg s1.eng := by
  obtain ⟨t, ht, hp⟩ := exists_of_answers (o := exec (.construct recB123AAA plugABCDEF) State.reset)
    (p := fun t => t.configured && (t.eng == engineAt 0 0 0)) (by decide)
  have hc : t.cfg = defaultParams := (exec_hostSideKept ht).1
  simp only [Bool.and_eq_true, beq_iff_eq] at hp
  exact ⟨t, ht, hp.1, by rw [hc, hp.2]; exact engine_reciprocal 0 0 0⟩

/-- ReadyCommandsFrame: each of the five commands answers without a fault. -/
theorem witness_ReadyCommandsFrame :
    ∀ i ∈ [Instr.encchr 0x41, .msgchr 0x2C, .step, .rdoff, .encmsg [0x41]],
      answers (exec i (readyAt 0 0 0)) (fun t => !t.fault) = true := by decide

theorem witness_NotConfiguredFaults :
    (∀ i ∈ [Instr.encchr 0x00, .msgchr 0x31, .step, .rdoff, .encmsg [0x31]], (neededOpcode i).isSome = true) ∧
    State.reset.fault = false ∧ State.reset.configured = false := by decide

/-- FaultCausesByCommand: each command faults somewhere. -/
theorem witness_FaultCausesByCommand :
    (∀ i ∈ [Instr.construct recB123AAA [0x61, 0x61], .encchr 0x41, .msgchr 0x41, .step, .rdoff, .encmsg [0x41]],
      answers (exec i State.reset) (fun t => t.fault) = true) ∧
    answers (exec (.encchr 0x5B) (readyAt 0 0 0)) (fun t => t.fault) = true ∧
    State.reset.fault = false := by decide

theorem witness_FaultedIsAbsorbing :
    stopped.fault = true ∧ Instr.step ≠ .encmsg [] ∧
    .reset ∉ ({ stopped with port := [.byte 0x02, .take] } : State).port := by decide

/-- StepKeepsInvariant: READY with a command at the port, and FAULTED with output to take. -/
theorem witness_StepKeepsInvariant :
    ({ readyAt 0 0 0 with port := [.byte 0x05] } : State).Inv ∧
    answers (step { readyAt 0 0 0 with port := [.byte 0x05] }) (fun _ => true) = true ∧
    ({ stopped with port := [.take] } : State).Inv ∧
    answers (step { stopped with port := [.take] }) (fun _ => true) = true := by decide

theorem witness_ParametersNeverChange :
    answers (step { State.reset with port := [.reset] }) (fun _ => true) = true := by decide

theorem witness_OutputIsNeverLost :
    answers (step { stopped with port := [.take] }) (fun _ => true) = true ∧
    ({ stopped with port := [.take] } : State).port.head? ≠ some .reset := by decide

theorem witness_EveryStepProgresses :
    rotorsBijective State.reset.cfg ∧ decode State.reset.asm = .incomplete ∧
    ({ State.reset with port := [.byte 0x02] } : State).port ≠ [] :=
  ⟨by decide +kernel, by decide, by decide⟩

theorem witness_UnspecifiedRegistersUnobserved :
    State.reset.configured = false ∧ answers (exec .rdoff State.reset) (fun _ => true) = true ∧
    answers (exec (.construct recB123AAA []) State.reset) (fun t => t.configured) = true := by decide

theorem witness_BehaviourIsTheRecord :
    (readyAt 0 0 0).Ready ∧ ({ readyAt 0 0 0 with out := [0x41], unspec := 7 } : State).Ready ∧
    answers (exec .rdoff (readyAt 0 0 0)) (fun t => t.configured) = true ∧
    answers (exec (.encchr 0x61) (readyAt 0 0 0)) (fun t => t.fault) = true := by decide

/-- LifecycleTransitions: each of the three. -/
theorem witness_LifecycleTransitions :
    answers (step { stopped with port := [.reset] }) (fun t => lifecycleOf t == .unconfigured) = true ∧
    answers (step { readyAt 0 0 0 with port := [.byte 0x00] }) (fun t => lifecycleOf t == .faulted) = true ∧
    answers (step { State.reset with port := (encode (.construct recB123AAA [])).map .byte })
      (fun t => lifecycleOf t == .ready) = true ∧
    lifecycleOf stopped = .faulted ∧ lifecycleOf (readyAt 0 0 0) = .ready ∧
    lifecycleOf State.reset = .unconfigured := by decide

theorem witness_TakeMovesTheOldestByte :
    stopped.out = 0x44 :: [] ∧ State.reset.out = [] ∧ State.reset.port = [] := by decide

/-- LetterCodesAreInverse: both ends of the letters with an index, of the lowercase range, and of the codes outside it. -/
theorem witness_LetterCodesAreInverse :
    letterIdx 0x41 = some 0 ∧ letterIdx 0x5A = some 25 ∧
    (0x61 ≤ (0x61 : Byte).toNat ∧ (0x7A : Byte).toNat ≤ 0x7A) ∧
    ((0x60 : Byte).toNat < 0x61 ∧ 0x7A < (0x7B : Byte).toNat) := by decide

end Sys2Proof.Tests
end

section
/-! PROOFS. What a command does, said once. A command that answers a next state does one of three things to its state:
it steps the rotors some number of times and emits some letters (`advance`), raises a fault, or commits a record. Which one
it is, with its arguments, is settled by the flags, the parameters and, in a configured engine, the record
(`SameEngine`, `ActsAs`). -/

namespace Sys2Proof.Machine

/-- The state after `n` STEPCHARs and the emission of `ys` (`41_stepper.md` R77, `30_encoding.md` R60). -/
def advance (n : Nat) (ys : List Byte) (s : State) : State :=
  { s with
    eng := { s.eng with
      off := stepTimes (readNotch s.cfg s.eng.rsel.middle) (readNotch s.cfg s.eng.rsel.right)
        (stepCount s.cfg.stepsPerChar * n) s.eng.off }
    out := s.out ++ ys }

@[simp] theorem advance_cfg (n : Nat) (ys : List Byte) (s : State) : (advance n ys s).cfg = s.cfg := rfl
@[simp] theorem advance_eng_refsel (n : Nat) (ys : List Byte) (s : State) :
    (advance n ys s).eng.refsel = s.eng.refsel := rfl
@[simp] theorem advance_eng_rsel (n : Nat) (ys : List Byte) (s : State) :
    (advance n ys s).eng.rsel = s.eng.rsel := rfl
@[simp] theorem advance_eng_pb (n : Nat) (ys : List Byte) (s : State) : (advance n ys s).eng.pb = s.eng.pb := rfl
@[simp] theorem advance_configured (n : Nat) (ys : List Byte) (s : State) :
    (advance n ys s).configured = s.configured := rfl
@[simp] theorem advance_fault (n : Nat) (ys : List Byte) (s : State) : (advance n ys s).fault = s.fault := rfl
@[simp] theorem advance_fcause (n : Nat) (ys : List Byte) (s : State) : (advance n ys s).fcause = s.fcause := rfl
@[simp] theorem advance_finfo (n : Nat) (ys : List Byte) (s : State) : (advance n ys s).finfo = s.finfo := rfl
@[simp] theorem advance_asm (n : Nat) (ys : List Byte) (s : State) : (advance n ys s).asm = s.asm := rfl
@[simp] theorem advance_out (n : Nat) (ys : List Byte) (s : State) : (advance n ys s).out = s.out ++ ys := rfl
@[simp] theorem advance_port (n : Nat) (ys : List Byte) (s : State) : (advance n ys s).port = s.port := rfl
@[simp] theorem advance_taken (n : Nat) (ys : List Byte) (s : State) : (advance n ys s).taken = s.taken := rfl
@[simp] theorem advance_unspec (n : Nat) (ys : List Byte) (s : State) : (advance n ys s).unspec = s.unspec := rfl

/-- `advance` reads nothing but the parameters and the record to find the next record. -/
theorem advance_eng_congr (n : Nat) (ys : List Byte) {s s' : State} (hcfg : s'.cfg = s.cfg) (heng : s'.eng = s.eng) :
    (advance n ys s').eng = (advance n ys s).eng := by
  simp only [advance, hcfg, heng]

@[simp] theorem advance_zero_nil (s : State) : advance 0 [] s = s := by
  simp [advance, stepTimes]

theorem stepTimes_add (nMiddle nRight : Idx) (m n : Nat) (o : Bank Idx) :
    stepTimes nMiddle nRight (m + n) o = stepTimes nMiddle nRight n (stepTimes nMiddle nRight m o) := by
  induction m generalizing o with
  | zero => rw [Nat.zero_add]; rfl
  | succ m ih => rw [Nat.succ_add]; exact ih _

theorem advance_advance (m n : Nat) (xs ys : List Byte) (s : State) :
    advance n ys (advance m xs s) = advance (m + n) (xs ++ ys) s := by
  simp [advance, Nat.mul_add, stepTimes_add]

theorem stepChar_eq_advance (s : State) : stepChar s = advance 1 [] s := by
  simp [stepChar, steppedOffsets, advance]

theorem emit_advance (c : Byte) (n : Nat) (ys : List Byte) (s : State) :
    emit c (advance n ys s) = advance n (ys ++ [c]) s := by
  simp [emit, advance]

theorem emit_stepChar (c : Byte) (s : State) : emit c (stepChar s) = advance 1 [c] s := by
  rw [stepChar_eq_advance, emit_advance, List.nil_append]

/-- Emitting alone is an advance by no step. -/
theorem emit_eq_advance (c : Byte) (s : State) : emit c s = advance 0 [c] s := by
  rw [← List.nil_append [c], ← emit_advance, advance_zero_nil]

/-- Two engines in the same lifecycle state with the same parameters and, where configured, the same record: all that
the meaning of a command may depend on (`10_state.md` R25, R27). -/
structure SameEngine (s s' : State) : Prop where
  cfg : s'.cfg = s.cfg
  configured : s'.configured = s.configured
  fault : s'.fault = s.fault
  eng : s.configured = true → s'.eng = s.eng

theorem SameEngine.refl (s : State) : SameEngine s s := ⟨rfl, rfl, rfl, fun _ => rfl⟩

theorem SameEngine.after_advance {s s' : State} (h : SameEngine s s') (n : Nat) (ys : List Byte) :
    SameEngine (advance n ys s) (advance n ys s') :=
  ⟨h.cfg, h.configured, h.fault, fun hc => advance_eng_congr n ys h.cfg (h.eng hc)⟩

/-- The meaning `k` does to `s`, and to every state with the same engine, what `g` does. -/
def ActsAs (k : State → Host.Outcome State Fault Refusal) (s : State) (g : State → State) : Prop :=
  ∀ s', SameEngine s s' → k s' = .next (g s')

theorem ActsAs.eq_of_next {k : State → Host.Outcome State Fault Refusal} {s t : State} {g : State → State}
    (h : ActsAs k s g) (ht : k s = .next t) : t = g s :=
  next_eq_next.mp ((h s (.refl s)).symm.trans ht)

/-- Output bytes that are letters (`43_encrypt.md` R106). -/
abbrev AllUpper (ys : List Byte) : Prop := ∀ c ∈ ys, isUpper c = true

/-- `k` steps the rotors and emits letters, and does nothing else. -/
def Advances (k : State → Host.Outcome State Fault Refusal) (s : State) : Prop :=
  ∃ n ys, AllUpper ys ∧ ActsAs k s (advance n ys)

theorem encipher_advances {l : Idx} {s t : State} (hc : s.configured = true) (h : encipher l s = .next t) :
    Advances (encipher l) s := by
  obtain ⟨y, hy, -⟩ := encipher_next.mp h
  refine ⟨1, [letterOf y], List.forall_mem_singleton.mpr (isUpper_letterOf y),
    fun s' hs => encipher_next.mpr ⟨y, ?_, (emit_stepChar _ _).symm⟩⟩
  rw [stepChar_eq_advance] at hy ⊢
  rw [hs.cfg, advance_eng_congr 1 [] hs.cfg (hs.eng hc), hy]

/-- In a configured engine a message byte never faults. -/
theorem messageByte_advances {c : Byte} {s t : State} (hc : s.configured = true) (h : messageByte c s = .next t) :
    Advances (messageByte c) s := by
  obtain ⟨hf, ⟨-, ha, l, hl, he⟩ | ⟨-, ha, -⟩ | ⟨hn, -⟩⟩ := messageByte_next.mp h
  · obtain ⟨n, ys, hup, hact⟩ := encipher_advances hc he
    exact ⟨n, ys, hup, fun s' hs => messageByte_next.mpr
      ⟨hs.fault.trans hf, .inl ⟨hs.configured.trans hc, ha, l, hl, hact s' hs⟩⟩⟩
  · exact ⟨0, [], List.forall_mem_nil _, fun s' hs => messageByte_next.mpr
      ⟨hs.fault.trans hf, .inr (.inl ⟨hs.configured.trans hc, ha, advance_zero_nil s'⟩)⟩⟩
  · simp [hc] at hn

/-- A message goes on with its second byte unless the first faulted (`43_encrypt.md` R105). -/
theorem messageBytes_cons_of_next {c : Byte} {cs : List Byte} {s u : State} (h : messageByte c s = .next u) :
    messageBytes (c :: cs) s = if u.fault then .next u else messageBytes cs u := by
  simp [messageBytes, h]

theorem exists_messageByte_of_messageBytes_cons {c : Byte} {cs : List Byte} {s t : State}
    (h : messageBytes (c :: cs) s = .next t) : ∃ u, messageByte c s = .next u := by
  cases hu : messageByte c s with
  | next u => exact ⟨u, rfl⟩
  | fault r => simp [messageBytes, hu] at h
  | refused r => simp [messageBytes, hu] at h

theorem messageBytes_nil_advances (s : State) : Advances (messageBytes []) s :=
  ⟨0, [], List.forall_mem_nil _, fun s' _ => by rw [advance_zero_nil]; rfl⟩

/-- Induction on the text: the advance of the first byte, then the advance of the others. -/
theorem messageBytes_advances {text : List Byte} {s t : State} (hc : s.configured = true)
    (h : messageBytes text s = .next t) : Advances (messageBytes text) s := by
  induction text generalizing s with
  | nil => exact messageBytes_nil_advances s
  | cons c cs ih =>
    obtain ⟨u, hu⟩ := exists_messageByte_of_messageBytes_cons h
    have hf : s.fault = false := (messageByte_next.mp hu).1
    obtain ⟨m, xs, hxs, hfirst⟩ := messageByte_advances hc hu
    have hcons : ∀ s', SameEngine s s' → messageBytes (c :: cs) s' = messageBytes cs (advance m xs s') := by
      intro s' hs
      simp [messageBytes_cons_of_next (hfirst s' hs), hs.fault.trans hf]
    obtain ⟨n, ys, hys, hrest⟩ := ih (s := advance m xs s) hc ((hcons s (.refl s)).symm.trans h)
    refine ⟨m + n, xs ++ ys, List.forall_mem_append.mpr ⟨hxs, hys⟩, fun s' hs => ?_⟩
    rw [hcons s' hs, hrest _ (hs.after_advance m xs), advance_advance]

/-- `k` raises a fault, and does nothing else. -/
def Faults (k : State → Host.Outcome State Fault Refusal) (s : State) : Prop :=
  s.fault = false ∧ ∃ f info, ActsAs k s (raise f info)

theorem messageByte_faults {c : Byte} {s : State} (hf : s.fault = false) (hc : s.configured = false) :
    Faults (messageByte c) s :=
  ⟨hf, .notConfigured, 0x03, fun _ hs => messageByte_next.mpr
    ⟨hs.fault.trans hf, .inr (.inr ⟨hs.configured.trans hc, rfl⟩)⟩⟩

theorem execEncchr_cases {c : Byte} {s t : State} (h : execEncchr c s = .next t) :
    Advances (execEncchr c) s ∨ Faults (execEncchr c) s := by
  obtain ⟨hf, ⟨hc, l, hl, he⟩ | ⟨hc, hl, -⟩ | ⟨hc, -⟩⟩ := execEncchr_next.mp h
  · obtain ⟨n, ys, hup, hact⟩ := encipher_advances hc he
    exact .inl ⟨n, ys, hup, fun s' hs => execEncchr_next.mpr
      ⟨hs.fault.trans hf, .inl ⟨hs.configured.trans hc, l, hl, hact s' hs⟩⟩⟩
  · exact .inr ⟨hf, .badSymbol, c, fun _ hs => execEncchr_next.mpr
      ⟨hs.fault.trans hf, .inr (.inl ⟨hs.configured.trans hc, hl, rfl⟩)⟩⟩
  · exact .inr ⟨hf, .notConfigured, 0x02, fun _ hs => execEncchr_next.mpr
      ⟨hs.fault.trans hf, .inr (.inr ⟨hs.configured.trans hc, rfl⟩)⟩⟩

theorem execMsgchr_cases {c : Byte} {s t : State} (h : execMsgchr c s = .next t) :
    Advances (execMsgchr c) s ∨ Faults (execMsgchr c) s := by
  cases hc : s.configured with
  | true => exact .inl (messageByte_advances hc h)
  | false => exact .inr (messageByte_faults (messageByte_next.mp h).1 hc)

theorem execStep_cases {s t : State} (h : execStep s = .next t) :
    ActsAs execStep s (advance 1 []) ∨ Faults execStep s := by
  obtain ⟨hf, ⟨hc, -⟩ | ⟨hc, -⟩⟩ := execStep_next.mp h
  · exact .inl fun s' hs => execStep_next.mpr
      ⟨hs.fault.trans hf, .inl ⟨hs.configured.trans hc, (stepChar_eq_advance s').symm⟩⟩
  · exact .inr ⟨hf, .notConfigured, 0x04, fun _ hs => execStep_next.mpr
      ⟨hs.fault.trans hf, .inr ⟨hs.configured.trans hc, rfl⟩⟩⟩

/-- The three letters of an RDOFF (`43_encrypt.md` R108). -/
def offsetLetters (o : Bank Idx) : List Byte := [letterOf o.left, letterOf o.middle, letterOf o.right]

theorem allUpper_offsetLetters (o : Bank Idx) : AllUpper (offsetLetters o) := by
  simp [AllUpper, offsetLetters]

theorem emit_offsetLetters (o : Bank Idx) (s : State) :
    emit (letterOf o.right) (emit (letterOf o.middle) (emit (letterOf o.left) s)) = advance 0 (offsetLetters o) s := by
  rw [emit_eq_advance (letterOf o.left), emit_advance, emit_advance]
  rfl

theorem execRdoff_cases {s t : State} (h : execRdoff s = .next t) :
    ActsAs execRdoff s (advance 0 (offsetLetters s.eng.off)) ∨ Faults execRdoff s := by
  obtain ⟨hf, ⟨hc, -⟩ | ⟨hc, -⟩⟩ := execRdoff_next.mp h
  · refine .inl fun s' hs => execRdoff_next.mpr ⟨hs.fault.trans hf, .inl ⟨hs.configured.trans hc, ?_⟩⟩
    rw [emit_offsetLetters, hs.eng hc]
  · exact .inr ⟨hf, .notConfigured, 0x05, fun _ hs => execRdoff_next.mpr
      ⟨hs.fault.trans hf, .inr ⟨hs.configured.trans hc, rfl⟩⟩⟩

theorem execEncmsg_cases {text : List Byte} {s t : State} (h : execEncmsg text s = .next t) :
    Advances (execEncmsg text) s ∨ Faults (execEncmsg text) s := by
  cases hc : s.configured with
  | true => exact .inl (messageBytes_advances hc h)
  | false =>
    cases text with
    | nil => exact .inl (messageBytes_nil_advances s)
    | cons c cs =>
      obtain ⟨u, hu⟩ := exists_messageByte_of_messageBytes_cons h
      obtain ⟨hf, f, info, hact⟩ := messageByte_faults (c := c) (messageByte_next.mp hu).1 hc
      exact .inr ⟨hf, f, info, fun s' hs => messageBytes_cons_of_next (hact s' hs)⟩

theorem execConstruct_cases {r : ConfigRecord} {plug : List Byte} {s t : State} (h : execConstruct r plug s = .next t) :
    (s.fault = false ∧ ∃ e, ActsAs (execConstruct r plug) s (commit e)) ∨ Faults (execConstruct r plug) s := by
  obtain ⟨hf, ⟨e, he, -⟩ | ⟨f, he, -⟩⟩ := execConstruct_next.mp h
  · exact .inl ⟨hf, e, fun _ hs => execConstruct_next.mpr ⟨hs.fault.trans hf, .inl ⟨e, he, rfl⟩⟩⟩
  · exact .inr ⟨hf, f.cause, f.info, fun _ hs => execConstruct_next.mpr ⟨hs.fault.trans hf, .inr ⟨f, he, rfl⟩⟩⟩

/-- A command that answers a next state advances, faults, or is a CONSTRUCT that commits. -/
theorem exec_cases {i : Instr} {s t : State} (h : exec i s = .next t) :
    Advances (exec i) s ∨ Faults (exec i) s ∨
      ∃ r plug e, i = .construct r plug ∧ s.fault = false ∧ ActsAs (exec i) s (commit e) := by
  cases i with
  | construct r plug =>
    obtain ⟨hf, e, hact⟩ | hfault := execConstruct_cases h
    · exact .inr (.inr ⟨r, plug, e, rfl, hf, hact⟩)
    · exact .inr (.inl hfault)
  | encchr c => exact (execEncchr_cases h).imp_right .inl
  | msgchr c => exact (execMsgchr_cases h).imp_right .inl
  | step => exact (execStep_cases h).imp (fun hact => ⟨1, [], List.forall_mem_nil _, hact⟩) .inl
  | rdoff => exact (execRdoff_cases h).imp (fun hact => ⟨0, _, allUpper_offsetLetters _, hact⟩) .inl
  | encmsg text => exact (execEncmsg_cases h).imp_right .inl

/-- The same of the next state alone. -/
theorem exec_next_cases {i : Instr} {s t : State} (h : exec i s = .next t) :
    (∃ n ys, AllUpper ys ∧ t = advance n ys s) ∨ (s.fault = false ∧ ∃ f info, t = raise f info s) ∨
      ∃ r plug e, i = .construct r plug ∧ s.fault = false ∧ t = commit e s := by
  obtain ⟨n, ys, hup, hact⟩ | ⟨hf, f, info, hact⟩ | ⟨r, plug, e, hi, hf, hact⟩ := exec_cases h
  · exact .inl ⟨n, ys, hup, hact.eq_of_next h⟩
  · exact .inr (.inl ⟨hf, f, info, hact.eq_of_next h⟩)
  · exact .inr (.inr ⟨r, plug, e, hi, hf, hact.eq_of_next h⟩)

end Sys2Proof.Machine
end

section
/-! PROOFS. The invariant: reset meets it and every step keeps it (`10_state.md` R19, R23, R24, R27). -/

namespace Sys2Proof.Machine

theorem inv_reset : State.reset.Inv := by decide

theorem causeCode_range (f : FaultCause) : 1 ≤ (causeCode f).toNat ∧ (causeCode f).toNat ≤ 7 := by
  cases f <;> decide

theorem inv_advance {s : State} (h : s.Inv) {n : Nat} {ys : List Byte} (hys : AllUpper ys) :
    (advance n ys s).Inv := by
  obtain ⟨hflags, hclear, hcause, hasm, hempty, hout, htaken⟩ := h
  exact ⟨hflags, hclear, hcause, hasm, hempty, List.forall_mem_append.mpr ⟨hout, hys⟩, htaken⟩

theorem inv_raise {s : State} (h : s.Inv) (hasm : s.asm = []) (f : FaultCause) (info : Byte) :
    (raise f info s).Inv := by
  obtain ⟨-, -, -, hdec, -, hout, htaken⟩ := h
  exact ⟨fun _ => rfl, by simp, fun _ => causeCode_range f, hdec, fun _ => hasm, hout, htaken⟩

theorem inv_commit {s : State} (h : s.Inv) (hf : s.fault = false) (e : EngineRecord) : (commit e s).Inv := by
  obtain ⟨-, hclear, hcause, hasm, hempty, hout, htaken⟩ := h
  exact ⟨by simp [hf], hclear, hcause, hasm, hempty, hout, htaken⟩

theorem inv_resetEvent {s : State} (h : s.Inv) : (resetEvent s).Inv := by
  obtain ⟨-, -, -, -, -, -, htaken⟩ := h
  exact ⟨fun _ => rfl, fun _ => ⟨rfl, rfl⟩, by simp, rfl, fun _ => rfl, by simp, htaken⟩

/-- The byte taken was untaken output, so it is a letter. -/
theorem inv_takeOutput {s : State} (h : s.Inv) : (takeOutput s).Inv := by
  obtain ⟨hflags, hclear, hcause, hasm, hempty, hout, htaken⟩ := h
  unfold takeOutput
  split
  · exact ⟨hflags, hclear, hcause, hasm, hempty, hout, htaken⟩
  · next c cs hc =>
    obtain ⟨hup, hrest⟩ := List.forall_mem_cons.mp (hc ▸ hout)
    exact ⟨hflags, hclear, hcause, hasm, hempty, hrest,
      List.forall_mem_append.mpr ⟨htaken, by simpa using hup⟩⟩

/-- Other bytes in the assembler, and other events presented. -/
theorem inv_setAsm {s : State} (h : s.Inv) {bs : List Byte} (hdec : decode bs = .incomplete)
    (hempty : s.fault = true → bs = []) (es : List PortEvent) : ({ s with asm := bs, port := es } : State).Inv := by
  obtain ⟨hflags, hclear, hcause, -, -, hout, htaken⟩ := h
  exact ⟨hflags, hclear, hcause, hdec, hempty, hout, htaken⟩

/-- The assembler emptied, as before a command runs. -/
theorem inv_clearAsm {s : State} (h : s.Inv) (es : List PortEvent) :
    ({ s with asm := [], port := es } : State).Inv :=
  inv_setAsm h rfl (fun _ => rfl) es

theorem exec_keeps_inv {i : Instr} {s t : State} (h : s.Inv) (hasm : s.asm = []) (ht : exec i s = .next t) :
    t.Inv := by
  obtain ⟨n, ys, hup, rfl⟩ | ⟨-, f, info, rfl⟩ | ⟨-, -, e, -, hf, rfl⟩ := exec_next_cases ht
  · exact inv_advance h hup
  · exact inv_raise h hasm f info
  · exact inv_commit h hf e

/-- Settles O2: the invariant and the lifecycle state of the reset state. -/
theorem resetStateIsLegal : Obligations.ResetStateIsLegal := ⟨inv_reset, rfl⟩

/-- Settles O50: case by case of what a step can be, each keeps the invariant. -/
theorem stepKeepsInvariant : Obligations.StepKeepsInvariant := by
  intro s t h ht
  obtain ⟨-, rfl⟩ | ⟨rest, -, rfl⟩ | ⟨rest, -, rfl⟩ | ⟨b, rest, -, -, rfl⟩ | ⟨i, more, -, -, he⟩ | ⟨op, more, -, -, rfl⟩ |
    ⟨hf, hdec, rfl⟩ := step_next ht
  · exact h
  · exact inv_resetEvent (s := { s with port := rest }) h
  · exact inv_takeOutput (s := { s with port := rest }) h
  · exact h
  · exact exec_keeps_inv (inv_clearAsm h _) rfl he
  · exact inv_raise (inv_clearAsm h _) rfl .illegalCommand op
  · exact inv_setAsm h hdec (by simp [hf]) _

end Sys2Proof.Machine
end

section
/-! PROOFS. The lifecycle, the parameters, the frames of the commands, and what a command depends on
(`10_state.md` R17, R22, R24 to R28). -/

namespace Sys2Proof.Machine

/-- The lifecycle state is a function of the two flags (R24). -/
theorem lifecycleOf_congr {s t : State} (hfault : t.fault = s.fault) (hconf : t.configured = s.configured) :
    lifecycleOf t = lifecycleOf s := by
  simp [lifecycleOf, hfault, hconf]

theorem lifecycleOf_raise (f : FaultCause) (info : Byte) (s : State) :
    lifecycleOf (raise f info s) = .faulted := rfl

theorem lifecycleOf_resetEvent (s : State) : lifecycleOf (resetEvent s) = .unconfigured := rfl

theorem lifecycleOf_commit (e : EngineRecord) {s : State} (hf : s.fault = false) :
    lifecycleOf (commit e s) = .ready := by
  simp [lifecycleOf, hf]

/-- An engine that accepts commands is UNCONFIGURED or READY. -/
theorem lifecycleOf_of_accepting {s : State} (hf : s.fault = false) :
    lifecycleOf s = .unconfigured ∨ lifecycleOf s = .ready := by
  cases hc : s.configured <;> simp [lifecycleOf, hf, hc]

/-- A command that changes the lifecycle state faults, or is a CONSTRUCT that takes UNCONFIGURED to READY. -/
theorem exec_lifecycle {i : Instr} {s t : State} (h : exec i s = .next t) (hne : lifecycleOf t ≠ lifecycleOf s) :
    lifecycleOf t = .faulted ∨
      (lifecycleOf s = .unconfigured ∧ lifecycleOf t = .ready ∧ ∃ r plug, i = .construct r plug) := by
  obtain ⟨n, ys, -, rfl⟩ | ⟨-, f, info, rfl⟩ | ⟨r, plug, e, hi, hf, rfl⟩ := exec_next_cases h
  · exact absurd (lifecycleOf_congr (advance_fault n ys s) (advance_configured n ys s)) hne
  · exact .inl (lifecycleOf_raise f info s)
  · have hready := lifecycleOf_commit e hf
    have hun := (lifecycleOf_of_accepting hf).resolve_right (fun hs => hne (hready.trans hs.symm))
    exact .inr ⟨hun, hready, r, plug, hi⟩

/-- Settles O51: of what a step can be, only a reset, a fault and a CONSTRUCT change a flag. -/
theorem lifecycleTransitions : Obligations.LifecycleTransitions := by
  intro s t ht hne
  obtain ⟨-, rfl⟩ | ⟨rest, hp, rfl⟩ | ⟨rest, -, rfl⟩ | ⟨b, rest, -, -, rfl⟩ | ⟨i, more, hf, hdec, he⟩ |
    ⟨op, more, hf, -, rfl⟩ | ⟨-, -, rfl⟩ := step_next ht
  · exact absurd rfl hne
  · exact .inl ⟨lifecycleOf_resetEvent _, by simp [hp]⟩
  · exact absurd (lifecycleOf_congr (takeOutput_fault _) (takeOutput_configured _)) hne
  · exact absurd rfl hne
  · obtain hfaulted | ⟨hun, hready, r, plug, rfl⟩ := exec_lifecycle he hne
    · exact .inr (.inl ⟨hfaulted, hf⟩)
    · exact .inr (.inr ⟨hun, hready, r, plug, more, hdec⟩)
  · exact .inr (.inl ⟨lifecycleOf_raise _ _ _, hf⟩)
  · exact absurd rfl hne

/-- Settles O52: no case of a step writes the parameters. -/
theorem parametersNeverChange : Obligations.ParametersNeverChange := by
  intro s t ht
  obtain ⟨-, rfl⟩ | ⟨rest, -, rfl⟩ | ⟨rest, -, rfl⟩ | ⟨b, rest, -, -, rfl⟩ | ⟨i, more, -, -, he⟩ | ⟨op, more, -, -, rfl⟩ |
    ⟨-, -, rfl⟩ := step_next ht
  · rfl
  · rfl
  · exact takeOutput_cfg _
  · rfl
  · obtain ⟨hcfg, -⟩ := exec_hostSideKept he
    exact hcfg
  · rfl
  · rfl

/-- Settles O15: a CONSTRUCT commits or faults, and neither touches these fields. -/
theorem constructFrame : Obligations.ConstructFrame := by
  intro s t r plug h
  obtain ⟨-, ⟨e, -, rfl⟩ | ⟨f, -, rfl⟩⟩ := execConstruct_next.mp h <;> simp

/-- Settles O46: without a fault and without a commit the command is an advance. -/
theorem readyCommandsFrame : Obligations.ReadyCommandsFrame := by
  intro i s t hi h hf
  have hrdoff : i = .rdoff → t.eng = s.eng := by
    rintro rfl
    obtain ⟨-, ⟨-, rfl⟩ | ⟨-, rfl⟩⟩ := execRdoff_next.mp h
    · rfl
    · simp at hf
  have hstep : i = .step → t.out = s.out := by
    rintro rfl
    obtain ⟨-, ⟨-, rfl⟩ | ⟨-, rfl⟩⟩ := execStep_next.mp h <;> rfl
  obtain ⟨n, ys, -, rfl⟩ | ⟨-, f, info, rfl⟩ | ⟨r, plug, e, rfl, -⟩ := exec_next_cases h
  · simpa using And.intro hrdoff hstep
  · simp at hf
  · exact absurd rfl (hi r plug)

/-- Settles O55: engines that are not configured are the same engine, whatever their records and counters. -/
theorem unspecifiedRegistersUnobserved : Obligations.UnspecifiedRegistersUnobserved := by
  intro s t e n i hc h
  have hs : SameEngine s { s with eng := e, unspec := n } := ⟨rfl, rfl, rfl, fun hc' => by simp [hc] at hc'⟩
  obtain ⟨m, ys, -, hact⟩ | ⟨-, f, info, hact⟩ | ⟨r, plug, e', -, -, hact⟩ := exec_cases h
  all_goals
    obtain rfl := hact.eq_of_next h
    exact ⟨_, hact _ hs, by simp [hc]⟩

/-- Settles O56: two READY engines with equal parameters and records are the same engine. -/
theorem behaviourIsTheRecord : Obligations.BehaviourIsTheRecord := by
  intro s s' t i ⟨hf, hc⟩ ⟨hf', hc'⟩ hcfg heng h
  have hs : SameEngine s s' := ⟨hcfg, hc'.trans hc.symm, hf'.trans hf.symm, fun _ => heng⟩
  obtain ⟨n, ys, -, hact⟩ | ⟨-, f, info, hact⟩ | ⟨r, plug, e, -, -, hact⟩ := exec_cases h
  · obtain rfl := hact.eq_of_next h
    exact ⟨_, ys, hact s' hs, by simp [hf, hf', hc, hc', advance_eng_congr n ys hcfg heng]⟩
  · obtain rfl := hact.eq_of_next h
    exact ⟨_, [], hact s' hs, by simp⟩
  · obtain rfl := hact.eq_of_next h
    exact ⟨_, [], hact s' hs, by simp [hf, hf']⟩

end Sys2Proof.Machine
end

section
/-! PROOFS. The output port loses nothing but at a reset, and the default tables meet the premises
(`20_memory.md` R35, R36, R41, `70_reset_and_hazards.md` R142). -/

namespace Sys2Proof.Machine

/-- A command only appends to the untaken output: an advance its letters, a fault and a CONSTRUCT nothing. -/
theorem exec_out_prefix {i : Instr} {s t : State} (h : exec i s = .next t) : s.out <+: t.out := by
  obtain ⟨n, ys, -, rfl⟩ | ⟨-, f, info, rfl⟩ | ⟨-, -, e, -, -, rfl⟩ := exec_next_cases h
  · exact List.prefix_append s.out ys
  · exact List.prefix_rfl
  · exact List.prefix_rfl

/-- Settles O53: a taking moves a byte across, a command appends, and no other case but a reset touches the output. -/
theorem outputIsNeverLost : Obligations.OutputIsNeverLost := by
  intro s t ht hreset
  obtain ⟨-, rfl⟩ | ⟨rest, hp, -⟩ | ⟨rest, -, rfl⟩ | ⟨b, rest, -, -, rfl⟩ | ⟨i, more, -, -, he⟩ | ⟨op, more, -, -, rfl⟩ |
    ⟨-, -, rfl⟩ := step_next ht
  · exact List.prefix_rfl
  · exact absurd (congrArg List.head? hp) hreset
  · rw [takeOutput_taken_out]
  · exact List.prefix_rfl
  · obtain ⟨-, -, -, htaken⟩ := exec_hostSideKept he
    have hout := exec_out_prefix he
    rw [htaken]
    exact (List.prefix_append_right_inj s.taken).mpr hout
  · exact List.prefix_rfl
  · exact List.prefix_rfl

theorem rotorsBijective_default : rotorsBijective defaultParams := by decide

theorem reflectorsBijective_default : ∀ r : Fin 3, isPermutation defaultParams.reflectorWiring[r] = true := by decide

theorem reflectorsInvolutive_default : reflectorsInvolutive defaultParams := by decide

theorem reflectorsFixFree_default : reflectorsFixFree defaultParams := by decide

/-- Settles O58: each premise is a finite check of the tables of R35 and R36. -/
theorem defaultTablesMeetPremises : Obligations.DefaultTablesMeetPremises :=
  ⟨rotorsBijective_default, reflectorsBijective_default, reflectorsInvolutive_default, reflectorsFixFree_default⟩

end Sys2Proof.Machine
end

section
/-! PROOFS. The decoder and the encoder are inverse to each other on the commands that have an opcode, and the other
opcode bytes are exactly the illegal ones (`30_encoding.md` R53 to R58, R62). -/

namespace Sys2Proof.Machine

@[simp] theorem decode_construct (bs : List Byte) : decode (0x01 :: bs) = decodeConstruct bs := rfl
@[simp] theorem decode_encchr (bs : List Byte) : decode (0x02 :: bs) = decodeEncchr bs := rfl
@[simp] theorem decode_msgchr (bs : List Byte) : decode (0x03 :: bs) = decodeMsgchr bs := rfl
@[simp] theorem decode_step (bs : List Byte) : decode (0x04 :: bs) = .command .step bs := rfl
@[simp] theorem decode_rdoff (bs : List Byte) : decode (0x05 :: bs) = .command .rdoff bs := rfl

/-- An opcode byte outside the opcode map is a complete illegal command by itself (R58). -/
theorem decode_of_notMem {op : Byte} (h : op ∉ [0x01, 0x02, 0x03, 0x04, 0x05]) (bs : List Byte) :
    decode (op :: bs) = .illegal op bs := by
  simp only [List.mem_cons, List.not_mem_nil, or_false, not_or] at h
  obtain ⟨h1, h2, h3, h4, h5⟩ := h
  simp only [decode, h1, h2, h3, h4, h5, if_false]

/-- Format C decodes its record, its plugboard string and leaves what follows the terminator (R55). -/
theorem decodeConstruct_recordBytes (r : ConfigRecord) {plug : List Byte}
    (h : plug.all (fun b => b != 0x00) = true) (rest : List Byte) :
    decodeConstruct (recordBytes r ++ (plug ++ 0x00 :: rest)) = .command (.construct r plug) rest := by
  simp only [recordBytes, List.cons_append, List.nil_append, decodeConstruct, splitTerminator_append h]

/-- What Format C decodes: seven record bytes, a string without 0x00, and its terminator (R55). -/
theorem decodeConstruct_eq_command {bs rest : List Byte} {i : Instr} (h : decodeConstruct bs = .command i rest) :
    ∃ r plug, i = .construct r plug ∧ plug.all (fun b => b != 0x00) = true ∧
      bs = recordBytes r ++ (plug ++ 0x00 :: rest) := by
  unfold decodeConstruct at h
  split at h
  · next r0 r1 r2 r3 r4 r5 r6 tail =>
    split at h
    · next pr hsplit =>
      obtain ⟨plug, after⟩ := pr
      obtain ⟨rfl, rfl⟩ := Decoded.command.inj h
      obtain ⟨rfl, hplug⟩ := splitTerminator_some hsplit
      exact ⟨⟨r0, r1, r2, r3, r4, r5, r6⟩, plug, rfl, hplug, rfl⟩
    · cases h
  · cases h

theorem decodeEncchr_eq_command {bs rest : List Byte} {i : Instr} (h : decodeEncchr bs = .command i rest) :
    ∃ c, i = .encchr c ∧ bs = c :: rest := by
  cases bs with
  | nil => cases h
  | cons c cs => obtain ⟨rfl, rfl⟩ := Decoded.command.inj h; exact ⟨c, rfl, rfl⟩

theorem decodeMsgchr_eq_command {bs rest : List Byte} {i : Instr} (h : decodeMsgchr bs = .command i rest) :
    ∃ c, i = .msgchr c ∧ bs = c :: rest := by
  cases bs with
  | nil => cases h
  | cons c cs => obtain ⟨rfl, rfl⟩ := Decoded.command.inj h; exact ⟨c, rfl, rfl⟩

theorem decodeConstruct_ne_illegal (bs : List Byte) (op : Byte) (rest : List Byte) :
    decodeConstruct bs ≠ .illegal op rest := by
  unfold decodeConstruct
  split
  · split <;> simp
  · simp

theorem decodeEncchr_ne_illegal (bs : List Byte) (op : Byte) (rest : List Byte) :
    decodeEncchr bs ≠ .illegal op rest := by
  cases bs <;> simp [decodeEncchr]

theorem decodeMsgchr_ne_illegal (bs : List Byte) (op : Byte) (rest : List Byte) :
    decodeMsgchr bs ≠ .illegal op rest := by
  cases bs <;> simp [decodeMsgchr]

theorem encode_construct_append (r : ConfigRecord) (plug rest : List Byte) :
    encode (.construct r plug) ++ rest = 0x01 :: (recordBytes r ++ (plug ++ 0x00 :: rest)) := by
  simp [encode]

/-- The commands that have an opcode decode from their encoding, with what follows left over (R53 to R57). -/
theorem decode_encode_append {i : Instr} (hwf : i.wellFormed = true) (hi : ∀ text, i ≠ .encmsg text)
    (rest : List Byte) : decode (encode i ++ rest) = .command i rest := by
  cases i with
  | construct r plug => rw [encode_construct_append, decode_construct, decodeConstruct_recordBytes r hwf]
  | encchr c => rfl
  | msgchr c => rfl
  | step => rfl
  | rdoff => rfl
  | encmsg text => exact absurd rfl (hi text)

/-- A decoded command is the one whose encoding was read: by the opcode byte, then by its format (R53 to R57). -/
theorem eq_encode_append_of_decode {bs rest : List Byte} {i : Instr} (h : decode bs = .command i rest) :
    bs = encode i ++ rest ∧ i.wellFormed = true ∧ ∀ text, i ≠ .encmsg text := by
  cases bs with
  | nil => cases h
  | cons op bs =>
    by_cases hop : op ∈ [0x01, 0x02, 0x03, 0x04, 0x05]
    · simp only [List.mem_cons, List.not_mem_nil, or_false] at hop
      obtain rfl | rfl | rfl | rfl | rfl := hop
      · obtain ⟨r, plug, rfl, hplug, rfl⟩ := decodeConstruct_eq_command h
        exact ⟨(encode_construct_append r plug rest).symm, hplug, by simp⟩
      · obtain ⟨c, rfl, rfl⟩ := decodeEncchr_eq_command h
        exact ⟨rfl, rfl, by simp⟩
      · obtain ⟨c, rfl, rfl⟩ := decodeMsgchr_eq_command h
        exact ⟨rfl, rfl, by simp⟩
      · obtain ⟨rfl, rfl⟩ := Decoded.command.inj h
        exact ⟨rfl, rfl, by simp⟩
      · obtain ⟨rfl, rfl⟩ := Decoded.command.inj h
        exact ⟨rfl, rfl, by simp⟩
    · rw [decode_of_notMem hop] at h
      cases h

/-- Settles O10: command by command, and ENCMSG by the encoding of its first MSGCHR. -/
theorem decodeOfEncode : Obligations.DecodeOfEncode :=
  ⟨fun _ rest hwf hi => decode_encode_append hwf hi rest, fun _ _ _ => rfl⟩

/-- Settles O11: by the opcode byte, each format is read back to the bytes it was decoded from. -/
theorem encodeOfDecode : Obligations.EncodeOfDecode := fun _ _ _ h => eq_encode_append_of_decode h

/-- Settles O3: each word evaluates. -/
theorem encodingWordsDecode : Obligations.EncodingWordsDecode := by
  unfold Obligations.EncodingWordsDecode
  decide

/-- Settles O12: no format of the opcode map answers the illegal command, and every other opcode byte does. -/
theorem illegalExactlyOutsideTable : Obligations.IllegalExactlyOutsideTable := by
  intro op bs
  refine ⟨fun h hop => ?_, fun hop => decode_of_notMem hop bs⟩
  simp only [List.mem_cons, List.not_mem_nil, or_false] at hop
  obtain rfl | rfl | rfl | rfl | rfl := hop
  · exact decodeConstruct_ne_illegal bs _ bs h
  · exact decodeEncchr_ne_illegal bs _ bs h
  · exact decodeMsgchr_ne_illegal bs _ bs h
  · cases h
  · cases h

end Sys2Proof.Machine
end

section
/-! PROOFS. What a step does with the events at the ports: the bytes of one command, however they are cut, a table
word, and a taking (`30_encoding.md` R57, R61, `60_exceptions.md` R119, R127, R128). -/

namespace Sys2Proof.Machine

/-- An accepting engine gathers the bytes presented next. -/
theorem step_eq_acceptBytes {s : State} {b : Byte} {rest : List PortEvent} (hf : s.fault = false)
    (hp : s.port = .byte b :: rest) : step s = acceptBytes s := by
  simp [step, portStep, hp, hf]

/-- An accepting engine gathers the bytes presented next, when they are given as a list that is not empty. -/
theorem step_eq_acceptBytes_of_map {s : State} {bs : List Byte} {rest : List PortEvent} (hf : s.fault = false)
    (hp : s.port = bs.map .byte ++ rest) (hbs : bs ≠ []) : step s = acceptBytes s := by
  obtain ⟨b, bs, rfl⟩ := List.exists_cons_of_ne_nil hbs
  exact step_eq_acceptBytes hf hp

theorem acceptBytes_of_command {s : State} {i : Instr} {more : List Byte}
    (h : decode (s.asm ++ leadingBytes s.port) = .command i more) :
    acceptBytes s = exec i { s with asm := [], port := more.map .byte ++ afterBytes s.port } := by
  simp only [acceptBytes, h]

theorem acceptBytes_of_incomplete {s : State} (h : decode (s.asm ++ leadingBytes s.port) = .incomplete) :
    acceptBytes s = .next { s with asm := s.asm ++ leadingBytes s.port, port := afterBytes s.port } := by
  simp only [acceptBytes, h]

/-- Bytes already in the assembler and bytes presented are one string to the engine (R57). -/
theorem acceptBytes_asm_append (s : State) (xs ys : List Byte) (rest : List PortEvent) :
    acceptBytes { s with asm := s.asm ++ xs, port := ys.map .byte ++ rest } =
      acceptBytes { s with port := (xs ++ ys).map .byte ++ rest } := by
  simp only [acceptBytes, leadingBytes_append, afterBytes_append, List.append_assoc]

/-- Settles O4: decoding is what acceptance does first. -/
theorem stepRunsDecodedCommand : Obligations.StepRunsDecodedCommand := by
  intro s b rest i more hf hp hdec
  rw [step_eq_acceptBytes hf hp, acceptBytes_of_command hdec]

/-- Settles O8: acceptance of bytes that are not yet a command moves them. -/
theorem partialCommandOnlyWaits : Obligations.PartialCommandOnlyWaits := by
  intro s b rest hf hp hdec
  rw [step_eq_acceptBytes hf hp, acceptBytes_of_incomplete hdec]

/-- A command that has an opcode sends at least one byte. -/
theorem encode_ne_nil {i : Instr} (hi : ∀ text, i ≠ .encmsg text) : encode i ≠ [] := by
  cases i with
  | encmsg text => exact absurd rfl (hi text)
  | _ => simp [encode]

/-- Settles O5: the bytes decode to the command, and what is left over of them is what was presented after it. -/
theorem stepRunsSentCommand : Obligations.StepRunsSentCommand := by
  intro s i rest hf hasm hwf hi hp
  have hdec : decode (s.asm ++ leadingBytes s.port) = .command i (leadingBytes rest) := by
    rw [hasm, hp, leadingBytes_append, List.nil_append, decode_encode_append hwf hi]
  rw [step_eq_acceptBytes_of_map hf hp (encode_ne_nil hi), acceptBytes_of_command hdec, hp, afterBytes_append,
    leading_append_after, ← hasm]

/-- The decoder's command of a table word has its own encoding as the word's first bytes. -/
theorem tableCommandBytes_eq_encode {nbits w : Nat} {i : Instr} (h : decodeTableWord nbits w = some i) :
    tableCommandBytes nbits w = encode i ∧ i.wellFormed = true ∧ ∀ text, i ≠ .encmsg text := by
  unfold decodeTableWord at h
  split at h
  · next j rest hdec =>
    obtain rfl := Option.some.inj h
    obtain ⟨hbytes, hwf, hi⟩ := eq_encode_append_of_decode hdec
    have htake : (tableBytes nbits w).take ((tableBytes nbits w).length - rest.length) = encode j := by
      simp [hbytes]
    exact ⟨by simpa only [tableCommandBytes, hdec] using htake, hwf, hi⟩
  · cases h
  · cases h

/-- Settles O6: placing the word is sending its command. -/
theorem stepRunsPlacedWord : Obligations.StepRunsPlacedWord := by
  intro s nbits w i hf h
  obtain ⟨hbytes, hwf, hi⟩ := tableCommandBytes_eq_encode h
  have hport : (s.withFetchWord nbits w).port = (encode i).map .byte ++ s.port := by
    rw [State.withFetchWord, presentNext_port, hbytes]
  exact stepRunsSentCommand (s.withFetchWord nbits w) i s.port hf rfl hwf hi hport

@[simp] theorem leadingBytes_map (bs : List Byte) : leadingBytes (bs.map .byte) = bs := by
  rw [← List.append_nil (bs.map PortEvent.byte), leadingBytes_append]
  exact List.append_nil bs

@[simp] theorem afterBytes_map (bs : List Byte) : afterBytes (bs.map .byte) = [] := by
  rw [← List.append_nil (bs.map PortEvent.byte), afterBytes_append]
  rfl

/-- Bytes presented alone that do not complete a command end up in the assembler; with none presented that is the
engine holding its state. -/
theorem step_of_incomplete {s : State} {xs : List Byte} (hf : s.fault = false)
    (hdec : decode (s.asm ++ xs) = .incomplete) :
    step { s with port := xs.map .byte } = .next { s with asm := s.asm ++ xs, port := [] } := by
  cases xs with
  | nil => simp [step, portStep]
  | cons b bs =>
    have hstep := step_eq_acceptBytes (s := { s with port := (b :: bs).map .byte }) hf rfl
    rw [hstep, acceptBytes_of_incomplete (by rwa [leadingBytes_map]), leadingBytes_map, afterBytes_map]

/-- Settles O9: the first step puts its piece into the assembler, where it is one string with the second. -/
theorem splitBytesGiveTheSame : Obligations.SplitBytesGiveTheSame := by
  intro s xs ys rest hf hdec hys
  refine ⟨_, step_of_incomplete hf hdec, ?_⟩
  have hfirst := step_eq_acceptBytes_of_map
    (s := { s with asm := s.asm ++ xs, port := ys.map .byte ++ rest }) hf rfl hys
  have hwhole := step_eq_acceptBytes_of_map
    (s := { s with port := (xs ++ ys).map .byte ++ rest }) hf rfl (List.append_ne_nil_of_right_ne_nil xs hys)
  exact hfirst.trans ((acceptBytes_asm_append s xs ys rest).trans hwhole.symm)

theorem step_take {s : State} {rest : List PortEvent} (hp : s.port = .take :: rest) :
    step s = .next (takeOutput { s with port := rest }) := by
  simp [step, portStep, hp]

theorem step_idle {s : State} (hp : s.port = []) : step s = .next s := by
  simp [step, portStep, hp]

theorem takeOutput_of_cons {s : State} {c : Byte} {cs : List Byte} (h : s.out = c :: cs) :
    takeOutput s = { s with out := cs, taken := s.taken ++ [c] } := by
  simp only [takeOutput, h]

theorem takeOutput_of_nil {s : State} (h : s.out = []) : takeOutput s = s := by
  simp only [takeOutput, h]

/-- Settles O57: a taking by whether there is a byte to offer, and the idle engine. -/
theorem takeMovesTheOldestByte : Obligations.TakeMovesTheOldestByte := by
  refine ⟨fun s c cs rest hp hout => ?_, fun s rest hp hout => ?_, fun s hp => step_idle hp⟩
  · rw [step_take hp, takeOutput_of_cons (s := { s with port := rest }) hout]
  · rw [step_take hp, takeOutput_of_nil (s := { s with port := rest }) hout]

end Sys2Proof.Machine
end

section
/-! PROOFS. The pieces of a plugboard string, and the letter codes (`30_encoding.md` R45, R46, R51,
`40_construct.md` R68). -/

namespace Sys2Proof.Machine

@[simp] theorem tokens_comma_cons (cs : List Byte) : tokens (0x2C :: cs) = [] :: tokens cs := rfl

/-- A string has a first token, and a byte that is no comma goes in front of it. -/
theorem exists_tokens_cons (plug : List Byte) : ∃ t ts, tokens plug = t :: ts ∧
    ∀ c : Byte, c ≠ 0x2C → tokens (c :: plug) = (c :: t) :: ts := by
  have hcons : ∃ t ts, tokens plug = t :: ts := by
    cases plug with
    | nil => exact ⟨[], [], rfl⟩
    | cons b bs =>
      unfold tokens
      split
      · exact ⟨[], tokens bs, rfl⟩
      · split
        · exact ⟨[b], [], rfl⟩
        · next t ts _ => exact ⟨b :: t, ts, rfl⟩
  obtain ⟨t, ts, h⟩ := hcons
  exact ⟨t, ts, h, fun c hc => by rw [tokens, if_neg (show c ≠ comma from hc), h]⟩

/-- Joining puts a byte in front of the first piece in front of the whole. -/
theorem intercalate_cons_head (sep : List Byte) (c : Byte) (t : List Byte) (ts : List (List Byte)) :
    List.intercalate sep ((c :: t) :: ts) = c :: List.intercalate sep (t :: ts) := by
  cases ts with
  | nil => simp
  | cons u us => simp only [List.intercalate_cons_cons, List.cons_append]

/-- Settles O20: byte by byte, a comma opens an empty token and any other byte goes in front of the first token. -/
theorem tokensAreThePieces : Obligations.TokensAreThePieces := by
  intro plug
  induction plug with
  | nil => decide
  | cons c cs ih =>
    obtain ⟨hlen, hfree, hjoin⟩ := ih
    obtain ⟨t, ts, htokens, hcons⟩ := exists_tokens_cons cs
    by_cases hc : c = 0x2C
    · subst hc
      rw [tokens_comma_cons]
      refine ⟨by simp [hlen], by simpa using hfree, ?_⟩
      rw [htokens] at hjoin ⊢
      rw [List.intercalate_cons_cons, hjoin]
      rfl
    · rw [hcons c hc]
      rw [htokens] at hlen hfree hjoin
      rw [List.forall_mem_cons] at hfree ⊢
      obtain ⟨hfirst, hothers⟩ := hfree
      refine ⟨?_, ⟨?_, hothers⟩, ?_⟩
      · rw [List.count_cons_of_ne hc]
        exact hlen
      · exact List.not_mem_cons_of_ne_of_not_mem (Ne.symm hc) hfirst
      · rw [intercalate_cons_head, hjoin]

/-- Settles O59: from the ranges of the classes and the value of a letter code. -/
theorem letterCodesAreInverse : Obligations.LetterCodesAreInverse := by
  refine ⟨fun i => ?_, fun c i h => ?_, fun c => ?_, isUpper_iff, isLower_iff, fun c => ?_, fun c hlo hhi => ?_,
    fun c hout => ?_⟩
  · rw [letterIdx_eq_some_iff, letterOf_toNat]
    exact ⟨isUpper_letterOf i, by omega⟩
  · obtain ⟨hup, hi⟩ := (letterIdx_eq_some_iff c i).mp h
    rw [isUpper_iff] at hup
    apply BitVec.eq_of_toNat_eq
    rw [letterOf_toNat]
    omega
  · rw [← isUpper_iff]
    exact ⟨fun ⟨i, h⟩ => ((letterIdx_eq_some_iff c i).mp h).1, exists_letterIdx⟩
  · rw [isAlpha, Bool.or_eq_true, isUpper_iff, isLower_iff]
  · have hl : isLower c = true := (isLower_iff c).mpr ⟨hlo, hhi⟩
    have hle : (0x20 : Byte) ≤ c := by rw [BitVec.le_def]; exact Nat.le_trans (by decide) hlo
    rw [toUpper, if_pos hl, BitVec.toNat_sub_of_le hle]
    rfl
  · have hn : ¬ isLower c = true := by rw [isLower_iff]; omega
    rw [toUpper, if_neg hn]

end Sys2Proof.Machine
end

section
/-! PROOFS. The plugboard a string builds: it exists exactly when every byte of a token of length 2 is an uppercase
letter, and it holds the writes of the letter pairs in order. With every letter in at most one pair it is an involution
(`40_construct.md` R67, R69, R70, R74). -/

namespace Sys2Proof.Machine

theorem getElem_writePb (pb : Table) (p v q : Idx) : (writePb pb p v)[q] = if p = q then v else pb[q] := by
  simp [writePb, Vector.getElem_set, Fin.ext_iff]

@[simp] theorem getElem_identityTable (p : Idx) : identityTable[p] = p := by simp [identityTable]

/-- Table writes, first to last. -/
def applyWrites (pb : Table) (writes : List (Idx × Idx)) : Table := writes.foldl (fun t w => writePb t w.1 w.2) pb

theorem applyWrites_append (pb : Table) (ws vs : List (Idx × Idx)) :
    applyWrites pb (ws ++ vs) = applyWrites (applyWrites pb ws) vs := by
  simp [applyWrites]

theorem lastWrite_concat (ws : List (Idx × Idx)) (w : Idx × Idx) (p : Idx) :
    lastWrite (ws ++ [w]) p = if w.1 = p then w.2 else lastWrite ws p := by
  by_cases h : w.1 = p <;> simp [lastWrite, h]

/-- From the identity table, an entry holds the last write to it (R67, R70). -/
theorem getElem_applyWrites_identityTable (ws : List (Idx × Idx)) (p : Idx) :
    (applyWrites identityTable ws)[p] = lastWrite ws p := by
  induction ws using List.reverseRecOn with
  | nil => exact getElem_identityTable p
  | append_singleton ws w ih =>
    rw [applyWrites_append, lastWrite_concat, ← ih]
    exact getElem_writePb _ w.1 w.2 p

/-- The letter pair of a well-formed token (`30_encoding.md` R51). -/
def tokenPair : List Byte → Option (Idx × Idx)
  | [a, b] =>
    match letterIdx a, letterIdx b with
    | some i, some j => some (i, j)
    | _, _ => none
  | _ => none

theorem letterPairs_eq (plug : List Byte) : letterPairs plug = (tokens plug).filterMap tokenPair := rfl

theorem pairWrites_append (ps qs : List (Idx × Idx)) : pairWrites (ps ++ qs) = pairWrites ps ++ pairWrites qs :=
  List.flatMap_append

theorem tokenPair_of_length_ne {t : List Byte} (h : t.length ≠ 2) : tokenPair t = none := by
  unfold tokenPair
  split
  · simp at h
  · rfl

/-- A token whose length is not 2 is dropped (R69). -/
theorem finishToken_of_length_ne {t : List Byte} (h : t.length ≠ 2) (pb : Table) : finishToken pb t = .ok pb := by
  unfold finishToken
  split
  · simp at h
  · rfl

theorem installPair_eq_ok_iff {pb pb' : Table} {a b : Byte} :
    installPair pb a b = .ok pb' ↔ (isUpper a = true ∧ isUpper b = true) ∧
      pb' = applyWrites pb (pairWrites (tokenPair [a, b]).toList) := by
  cases ha : letterIdx a with
  | none => simp [installPair, ha, (letterIdx_eq_none_iff a).mp ha]
  | some i =>
    cases hb : letterIdx b with
    | none => simp [installPair, ha, hb, (letterIdx_eq_none_iff b).mp hb]
    | some j =>
      have hupper := And.intro ((letterIdx_eq_some_iff a i).mp ha).1 ((letterIdx_eq_some_iff b j).mp hb).1
      simp [installPair, tokenPair, pairWrites, applyWrites, ha, hb, hupper, eq_comm (b := pb')]

/-- A token is finished without a fault exactly when its length is not 2 or its bytes are letters, by its writes. -/
theorem finishToken_eq_ok_iff {pb pb' : Table} {t : List Byte} :
    finishToken pb t = .ok pb' ↔ (t.length = 2 → ∀ c ∈ t, isUpper c = true) ∧
      pb' = applyWrites pb (pairWrites (tokenPair t).toList) := by
  by_cases h : t.length = 2
  · obtain ⟨a, b, rfl⟩ := List.length_eq_two.mp h
    rw [finishToken, installPair_eq_ok_iff]
    simp
  · rw [finishToken_of_length_ne h, tokenPair_of_length_ne h]
    simp [h, pairWrites, applyWrites, eq_comm (b := pb')]

theorem finishTokens_cons_eq_ok_iff {pb pb' : Table} {t : List Byte} {ts : List (List Byte)} :
    finishTokens pb (t :: ts) = .ok pb' ↔ ∃ pb₁, finishToken pb t = .ok pb₁ ∧ finishTokens pb₁ ts = .ok pb' := by
  cases h : finishToken pb t <;> simp [finishTokens, h]

/-- Induction on the tokens: each is finished on the table that those before it leave. -/
theorem finishTokens_eq_ok_iff {pb pb' : Table} {ts : List (List Byte)} :
    finishTokens pb ts = .ok pb' ↔ (∀ t ∈ ts, t.length = 2 → ∀ c ∈ t, isUpper c = true) ∧
      pb' = applyWrites pb (pairWrites (ts.filterMap tokenPair)) := by
  induction ts generalizing pb with
  | nil => simp [finishTokens, pairWrites, applyWrites, eq_comm (b := pb')]
  | cons t ts ih =>
    have hpairs : (t :: ts).filterMap tokenPair = (tokenPair t).toList ++ ts.filterMap tokenPair := by
      cases h : tokenPair t <;> simp [h]
    simp only [finishTokens_cons_eq_ok_iff, finishToken_eq_ok_iff, ih, List.forall_mem_cons, hpairs,
      pairWrites_append, applyWrites_append]
    constructor
    · rintro ⟨pb₁, ⟨ht, rfl⟩, hts, hpb⟩
      exact ⟨⟨ht, hts⟩, hpb⟩
    · rintro ⟨⟨ht, hts⟩, hpb⟩
      exact ⟨_, ⟨ht, rfl⟩, hts, hpb⟩

theorem forall_mem_pairBytes {plug : List Byte} {P : Byte → Prop} :
    (∀ c ∈ pairBytes plug, P c) ↔ ∀ t ∈ tokens plug, t.length = 2 → ∀ c ∈ t, P c := by
  simp only [pairBytes, List.mem_flatten, List.mem_filter, beq_iff_eq]
  exact ⟨fun h t ht h2 c hc => h c ⟨t, ⟨ht, h2⟩, hc⟩, fun h c ⟨t, ⟨ht, h2⟩, hc⟩ => h t ht h2 c hc⟩

/-- Which strings build a plugboard, and which one. -/
theorem buildPlugboard_eq_ok_iff {plug : List Byte} {pb : Table} :
    buildPlugboard plug = .ok pb ↔ (∀ c ∈ pairBytes plug, isUpper c = true) ∧
      pb = applyWrites identityTable (pairWrites (letterPairs plug)) := by
  rw [buildPlugboard, finishTokens_eq_ok_iff, forall_mem_pairBytes, letterPairs_eq]

/-- The last write to an entry is one of the writes, or there is none and the entry is as it was. -/
theorem lastWrite_cases (ws : List (Idx × Idx)) (p : Idx) :
    (p, lastWrite ws p) ∈ ws ∨ (lastWrite ws p = p ∧ ∀ q, (p, q) ∉ ws) := by
  induction ws using List.reverseRecOn with
  | nil => exact .inr ⟨rfl, by simp⟩
  | append_singleton ws w ih =>
    rw [lastWrite_concat]
    by_cases h : w.1 = p
    · simp [← h]
    · rw [if_neg h]
      obtain hmem | ⟨heq, hnone⟩ := ih
      · exact .inl (List.mem_append_left _ hmem)
      · refine .inr ⟨heq, fun q hq => ?_⟩
        obtain hq | hq := List.mem_append.mp hq
        · exact hnone q hq
        · exact h (by simp [← List.mem_singleton.mp hq])

/-- No entry is written twice with different values. -/
def WritesOnce (ws : List (Idx × Idx)) : Prop := ∀ p q q', (p, q) ∈ ws → (p, q') ∈ ws → q = q'

theorem lastWrite_eq_of_mem {ws : List (Idx × Idx)} (h : WritesOnce ws) {p q : Idx} (hpq : (p, q) ∈ ws) :
    lastWrite ws p = q := by
  obtain hmem | ⟨-, hnone⟩ := lastWrite_cases ws p
  · exact h p _ _ hmem hpq
  · exact absurd hpq (hnone q)

theorem mem_pairWrites {pairs : List (Idx × Idx)} {p q : Idx} :
    (p, q) ∈ pairWrites pairs ↔ (p, q) ∈ pairs ∨ (q, p) ∈ pairs := by
  simp only [pairWrites, List.mem_flatMap, List.mem_cons, Prod.mk.injEq, List.not_mem_nil, or_false]
  constructor
  · rintro ⟨⟨a, b⟩, hab, ⟨rfl, rfl⟩ | ⟨rfl, rfl⟩⟩
    · exact .inl hab
    · exact .inr hab
  · rintro (hab | hab)
    · exact ⟨_, hab, .inl ⟨rfl, rfl⟩⟩
    · exact ⟨_, hab, .inr ⟨rfl, rfl⟩⟩

theorem pairWrites_symm {pairs : List (Idx × Idx)} {p q : Idx} (h : (p, q) ∈ pairWrites pairs) :
    (q, p) ∈ pairWrites pairs :=
  mem_pairWrites.mpr (mem_pairWrites.mp h).symm

/-- Reciprocal writes give an involution when no entry is written twice with different values. -/
theorem lastWrite_pairWrites_involutive {pairs : List (Idx × Idx)} (h : WritesOnce (pairWrites pairs)) (p : Idx) :
    lastWrite (pairWrites pairs) (lastWrite (pairWrites pairs) p) = p := by
  obtain hmem | ⟨heq, -⟩ := lastWrite_cases (pairWrites pairs) p
  · exact lastWrite_eq_of_mem h (pairWrites_symm hmem)
  · rw [heq, heq]

theorem length_pairLetters (pairs : List (Idx × Idx)) : (pairLetters pairs).length = 2 * pairs.length := by
  simp [pairLetters, List.length_flatMap, Nat.mul_comm]

/-- The letters of the pairs are the entries that are written. -/
theorem mem_pairLetters {pairs : List (Idx × Idx)} {p : Idx} :
    p ∈ pairLetters pairs ↔ ∃ q, (p, q) ∈ pairWrites pairs := by
  simp only [pairLetters, List.mem_flatMap, List.mem_cons, List.not_mem_nil, or_false, mem_pairWrites]
  constructor
  · rintro ⟨⟨a, b⟩, hab, rfl | rfl⟩
    · exact ⟨b, .inl hab⟩
    · exact ⟨a, .inr hab⟩
  · rintro ⟨q, hpq | hqp⟩
    · exact ⟨_, hpq, .inl rfl⟩
    · exact ⟨_, hqp, .inr rfl⟩

/-- Pairs whose letters are all different have no letter in common. -/
theorem eq_of_mem_pairs {pairs : List (Idx × Idx)} (h : (pairLetters pairs).Nodup) {ab cd : Idx × Idx} {p : Idx}
    (hab : ab ∈ pairs) (hcd : cd ∈ pairs) (hp : p ∈ [ab.1, ab.2]) (hp' : p ∈ [cd.1, cd.2]) : ab = cd := by
  by_contra hne
  have hsymm : Std.Symm (Function.onFun List.Disjoint fun ab : Idx × Idx => [ab.1, ab.2]) :=
    ⟨fun _ _ hdisjoint => List.Disjoint.symm hdisjoint⟩
  have hdisjoint := (List.nodup_flatMap.mp h).2.forall hab hcd hne
  exact hdisjoint hp hp'

theorem writesOnce_of_nodup {pairs : List (Idx × Idx)} (h : (pairLetters pairs).Nodup) :
    WritesOnce (pairWrites pairs) := by
  intro p q q' hq hq'
  obtain hm | hm := mem_pairWrites.mp hq <;> obtain hm' | hm' := mem_pairWrites.mp hq'
  all_goals
    have heq := eq_of_mem_pairs (p := p) h hm hm' (by simp) (by simp)
    simp_all

/-- The moving pairs write what the letter pairs write, but for the writes that leave an entry at its own letter. -/
theorem mem_pairWrites_movingPairs {plug : List Byte} {p q : Idx} :
    (p, q) ∈ pairWrites (movingPairs plug) ↔ (p, q) ∈ pairWrites (letterPairs plug) ∧ p ≠ q := by
  simp [mem_pairWrites, movingPairs, or_and_right, ne_comm (a := q)]

/-- A letter paired with itself is written nothing else, and the other writes are those of the moving pairs. -/
theorem writesOnce_of_lettersInOnePair {plug : List Byte} (h : lettersInOnePair plug) :
    WritesOnce (pairWrites (letterPairs plug)) := by
  obtain ⟨hnodup, hself⟩ := h
  have hfixed : ∀ p q, (p, p) ∈ pairWrites (letterPairs plug) → (p, q) ∈ pairWrites (letterPairs plug) → p = q := by
    intro p q hpp hpq
    by_contra hne
    exact hself (p, p) (by simpa [mem_pairWrites] using hpp) rfl
      (mem_pairLetters.mpr ⟨q, mem_pairWrites_movingPairs.mpr ⟨hpq, hne⟩⟩)
  intro p q q' hq hq'
  by_cases heq : p = q
  · subst heq
    exact hfixed p q' hq hq'
  by_cases heq' : p = q'
  · subst heq'
    exact (hfixed p q hq' hq).symm
  exact writesOnce_of_nodup hnodup p q q' (mem_pairWrites_movingPairs.mpr ⟨hq, heq⟩)
    (mem_pairWrites_movingPairs.mpr ⟨hq', heq'⟩)

theorem lastWrite_ne_self_iff {ws : List (Idx × Idx)} (h : WritesOnce ws) {p : Idx} :
    lastWrite ws p ≠ p ↔ ∃ q, (p, q) ∈ ws ∧ p ≠ q := by
  constructor
  · intro hne
    obtain hmem | ⟨heq, -⟩ := lastWrite_cases ws p
    · exact ⟨_, hmem, hne.symm⟩
    · exact absurd heq hne
  · rintro ⟨q, hpq, hne⟩
    rw [lastWrite_eq_of_mem h hpq]
    exact hne.symm

/-- The entries that are moved are the letters of the moving pairs. -/
theorem lastWrite_ne_self_iff_mem_pairLetters {plug : List Byte} (h : lettersInOnePair plug) (p : Idx) :
    lastWrite (pairWrites (letterPairs plug)) p ≠ p ↔ p ∈ pairLetters (movingPairs plug) := by
  simp only [lastWrite_ne_self_iff (writesOnce_of_lettersInOnePair h), mem_pairLetters, mem_pairWrites_movingPairs]

/-- Settles O17: the table holds the last writes; they are reciprocal and none overwrites another, and the entries they
move are the letters of the moving pairs, each named once. -/
theorem plugboardIsInvolution : Obligations.PlugboardIsInvolution := by
  intro plug pb hbuild hone
  obtain ⟨-, rfl⟩ := buildPlugboard_eq_ok_iff.mp hbuild
  simp only [Involutive, getElem_applyWrites_identityTable]
  refine ⟨lastWrite_pairWrites_involutive (writesOnce_of_lettersInOnePair hone), ?_⟩
  rw [← length_pairLetters]
  refine List.Perm.length_eq ((List.perm_ext_iff_of_nodup ((List.nodup_finRange 26).filter _) hone.1).mpr fun p => ?_)
  simp only [List.mem_filter, List.mem_finRange, true_and, bne_iff_ne, lastWrite_ne_self_iff_mem_pairLetters hone]

end Sys2Proof.Machine
end

section
/-! PROOFS. Only the tokens of length 2 matter, and the streaming tokenizer finishes the same tokens
(`40_construct.md` R68, R69, `60_exceptions.md` R112). -/

namespace Sys2Proof.Machine

/-- Leaving out the tokens whose length is not 2 changes neither the table nor the fault. -/
theorem finishTokens_filter (pb : Table) (ts : List (List Byte)) :
    finishTokens pb (ts.filter (fun t => t.length == 2)) = finishTokens pb ts := by
  induction ts generalizing pb with
  | nil => rfl
  | cons t ts ih =>
    by_cases h : t.length = 2
    · simp [h, finishTokens, ih]
    · simp [h, finishTokens, finishToken_of_length_ne h, ih]

theorem buildPlugboard_congr {p q : List Byte}
    (h : (tokens p).filter (fun t => t.length == 2) = (tokens q).filter (fun t => t.length == 2)) :
    buildPlugboard p = buildPlugboard q := by
  rw [buildPlugboard, buildPlugboard, ← finishTokens_filter, h, finishTokens_filter]

/-- Settles O19: CONSTRUCT reads the string through the plugboard it builds. -/
theorem malformedTokensAreDropped : Obligations.MalformedTokensAreDropped := by
  intro s r p q h
  simp only [exec, execConstruct, checkedRecord, buildPlugboard_congr h]

/-- The tokenizer has taken in the bytes `t` of the current token: its length up to 3, and both bytes of a token of
length 2 (R68). -/
def Tokenizer.Holds (k : Tokenizer) : List Byte → Prop
  | [] => k.len = 0
  | [a] => k.len = 1 ∧ k.t0 = a
  | [a, b] => k.len = 2 ∧ k.t0 = a ∧ k.t1 = b
  | _ :: _ :: _ :: _ => k.len = 3

/-- A byte that is no comma joins the current token. -/
theorem streamByte_holds {k : Tokenizer} {t : List Byte} (h : k.Holds t) {c : Byte} (hc : c ≠ 0x2C) :
    ∃ k', streamByte k c = .ok k' ∧ k'.pb = k.pb ∧ k'.Holds (t ++ [c]) := by
  refine ⟨_, if_neg hc, rfl, ?_⟩
  match t, h with
  | [], (hlen : k.len = 0) => simp [Tokenizer.Holds, hlen]
  | [_], ⟨hlen, ht0⟩ => simp [Tokenizer.Holds, hlen, ht0]
  | [_, _], ⟨hlen, _, _⟩ => simp [Tokenizer.Holds, hlen]
  | _ :: _ :: _ :: _, (hlen : k.len = 3) => simp [Tokenizer.Holds, hlen]

/-- The length kept tells a token of length 2 from every other. -/
theorem Tokenizer.Holds.len_eq {k : Tokenizer} {t : List Byte} (h : k.Holds t) : k.len = min t.length 3 := by
  match t, h with
  | [], hlen => exact hlen
  | [_], ⟨hlen, _⟩ => exact hlen
  | [_, _], ⟨hlen, _, _⟩ => exact hlen
  | _ :: _ :: _ :: _, (hlen : k.len = 3) => simp [hlen]

/-- Finishing the streamed token does to the table what finishing the token does, and a new token begins. -/
theorem streamFinish_eq {k : Tokenizer} {t : List Byte} (h : k.Holds t) :
    streamFinish k = (finishToken k.pb t).map (fun pb => { k with pb := pb, len := 0 }) := by
  by_cases h2 : t.length = 2
  · obtain ⟨a, b, rfl⟩ := List.length_eq_two.mp h2
    obtain ⟨hlen, rfl, rfl⟩ := h
    rw [streamFinish, if_pos hlen, finishToken]
    cases installPair k.pb k.t0 k.t1 <;> rfl
  · have hlen : k.len ≠ 2 := by rw [h.len_eq]; omega
    rw [streamFinish, if_neg hlen, finishToken_of_length_ne h2]
    rfl

/-- Induction on the bytes to come, `t` being those of the first token that were taken in before. -/
theorem streamString_eq {k : Tokenizer} {t u : List Byte} {us : List (List Byte)} {cs : List Byte} (h : k.Holds t)
    (hcs : tokens cs = u :: us) : (streamString k cs).map (fun k => k.pb) = finishTokens k.pb ((t ++ u) :: us) := by
  induction cs generalizing k t u us with
  | nil =>
    obtain ⟨rfl, rfl⟩ := List.cons.inj hcs
    rw [streamString, streamFinish_eq h, List.append_nil, finishTokens]
    cases finishToken k.pb t <;> rfl
  | cons c cs ih =>
    obtain ⟨v, vs, hvs, hcons⟩ := exists_tokens_cons cs
    by_cases hc : c = 0x2C
    · subst hc
      obtain ⟨rfl, rfl⟩ := List.cons.inj ((tokens_comma_cons cs).symm.trans hcs)
      have hstep : streamByte k 0x2C = streamFinish k := rfl
      rw [streamString, hstep, streamFinish_eq h, List.append_nil, finishTokens]
      cases finishToken k.pb t with
      | error e => rfl
      | ok pb => rw [hvs]; exact ih (t := []) (k := { k with pb := pb, len := 0 }) rfl hvs
    · obtain ⟨rfl, rfl⟩ := List.cons.inj ((hcons c hc).symm.trans hcs)
      obtain ⟨k', hk', hpb, hholds⟩ := streamByte_holds h hc
      simp only [streamString, hk', ih hholds hvs, hpb, List.append_assoc, List.singleton_append]

/-- Settles O18: before the first byte the tokenizer holds an empty token and the identity table. -/
theorem streamingTokenizerAgrees : Obligations.StreamingTokenizerAgrees := by
  intro plug
  obtain ⟨u, us, htokens, -⟩ := exists_tokens_cons plug
  have hempty : (⟨identityTable, 0, 0, 0⟩ : Tokenizer).Holds [] := rfl
  rw [streamPlugboard, streamString_eq hempty htokens, buildPlugboard, htokens, List.nil_append]

end Sys2Proof.Machine
end

section
/-! PROOFS. CONSTRUCT with legal bytes commits the record they name, which the state before has no part in
(`40_construct.md` R63 to R67, R70, R72, R73). -/

namespace Sys2Proof.Machine

/-- Settles O16: the checks read the operands alone, so where one CONSTRUCT commits so does the other, the same record. -/
theorem constructForgetsPreviousEngine : Obligations.ConstructForgetsPreviousEngine := by
  intro s s' t t' r plug h h' hc
  obtain ⟨-, ⟨e, he, rfl⟩ | ⟨f, -, rfl⟩⟩ := execConstruct_next.mp h
  · obtain ⟨-, ⟨e', he', rfl⟩ | ⟨f, he', -⟩⟩ := execConstruct_next.mp h'
    · obtain rfl := Except.ok.inj (he.symm.trans he')
      exact ⟨rfl, rfl⟩
    · simp [he] at he'
  · simp at hc

theorem byteIn_iff {lo hi : Nat} {c : Byte} : byteIn lo hi c = true ↔ lo ≤ c.toNat ∧ c.toNat ≤ hi := by
  simp [byteIn]

theorem decodeReflector_of_byteIn {c : Byte} (h : byteIn 0x41 0x43 c = true) :
    ∃ sel, decodeReflector c = .ok sel ∧ reflectorValue sel = c.toNat - 0x41 := by
  obtain ⟨hlo, hhi⟩ := byteIn_iff.mp h
  have hcodes : c = 0x41 ∨ c = 0x42 ∨ c = 0x43 := by bv_omega
  obtain rfl | rfl | rfl := hcodes
  · exact ⟨.a, rfl, rfl⟩
  · exact ⟨.b, rfl, rfl⟩
  · exact ⟨.c, rfl, rfl⟩

theorem decodeRotor_of_byteIn {c : Byte} (h : byteIn 0x31 0x35 c = true) :
    ∃ sel, decodeRotor c = .ok sel ∧ rotorValue sel = c.toNat - 0x30 := by
  obtain ⟨hlo, hhi⟩ := byteIn_iff.mp h
  have hcodes : c = 0x31 ∨ c = 0x32 ∨ c = 0x33 ∨ c = 0x34 ∨ c = 0x35 := by bv_omega
  obtain rfl | rfl | rfl | rfl | rfl := hcodes
  · exact ⟨.one, rfl, rfl⟩
  · exact ⟨.two, rfl, rfl⟩
  · exact ⟨.three, rfl, rfl⟩
  · exact ⟨.four, rfl, rfl⟩
  · exact ⟨.five, rfl, rfl⟩

/-- The range of a start letter is that of the uppercase letters. -/
theorem byteIn_eq_isUpper (c : Byte) : byteIn 0x41 0x5A c = isUpper c := rfl

theorem decodeStart_of_byteIn {c : Byte} (h : byteIn 0x41 0x5A c = true) :
    ∃ o, decodeStart c = .ok o ∧ o.val = c.toNat - 0x41 := by
  rw [byteIn_eq_isUpper] at h
  obtain ⟨o, ho⟩ := exists_letterIdx h
  exact ⟨o, by simp [decodeStart, ho], ((letterIdx_eq_some_iff c o).mp ho).2⟩

theorem checkedRecord_of_ok {r : ConfigRecord} {plug : List Byte} {refsel : ReflectorSel} {rsel : Bank RotorSel}
    {off : Bank Idx} {pb : Table} (href : decodeReflector r.reflector = .ok refsel)
    (hl : decodeRotor r.rotorLeft = .ok rsel.left) (hm : decodeRotor r.rotorMiddle = .ok rsel.middle)
    (hr : decodeRotor r.rotorRight = .ok rsel.right) (hl' : decodeStart r.startLeft = .ok off.left)
    (hm' : decodeStart r.startMiddle = .ok off.middle) (hr' : decodeStart r.startRight = .ok off.right)
    (hpb : buildPlugboard plug = .ok pb) : checkedRecord r plug = .ok ⟨refsel, rsel, off, pb⟩ := by
  simp only [checkedRecord, decodeRotors, decodeStarts, href, hl, hm, hr, hl', hm', hr', hpb]
  rfl

theorem firstFault_eq_none_iff {r : ConfigRecord} {plug : List Byte} :
    firstFault r plug = none ↔ ∀ k ∈ constructChecks r plug, k.2.2 = true := by
  simp [firstFault]

/-- Settles O13: every check passes, so every part of the record decodes, to the value of its byte. -/
theorem constructCommits : Obligations.ConstructCommits := by
  intro s r plug hf hnone
  have hchecks := firstFault_eq_none_iff.mp hnone
  simp only [constructChecks, List.forall_mem_append, List.forall_mem_cons, List.forall_mem_map] at hchecks
  obtain ⟨⟨href, hl, hm, hr, hl', hm', hr', -⟩, hplug⟩ := hchecks
  obtain ⟨refsel, href, hrefval⟩ := decodeReflector_of_byteIn href
  obtain ⟨left, hl, hlval⟩ := decodeRotor_of_byteIn hl
  obtain ⟨middle, hm, hmval⟩ := decodeRotor_of_byteIn hm
  obtain ⟨right, hr, hrval⟩ := decodeRotor_of_byteIn hr
  obtain ⟨offLeft, hl', hlval'⟩ := decodeStart_of_byteIn hl'
  obtain ⟨offMiddle, hm', hmval'⟩ := decodeStart_of_byteIn hm'
  obtain ⟨offRight, hr', hrval'⟩ := decodeStart_of_byteIn hr'
  have hrecord := checkedRecord_of_ok (rsel := ⟨left, middle, right⟩) (off := ⟨offLeft, offMiddle, offRight⟩)
    href hl hm hr hl' hm' hr' (buildPlugboard_eq_ok_iff.mpr ⟨hplug, rfl⟩)
  exact ⟨_, execConstruct_next.mpr ⟨hf, .inl ⟨_, hrecord, rfl⟩⟩, hrefval, hlval, hmval, hrval, hlval', hmval', hrval',
    getElem_applyWrites_identityTable _⟩

end Sys2Proof.Machine
end

section
/-! PROOFS. The stepper. Counted from their notches, the middle and right rotors with the left one are the digits of a
base-26 odometer, which STEP1 advances by 1 (`41_stepper.md` R75 to R80). -/

namespace Sys2Proof.Machine

/-- Where STEP1 moves the middle rotor, and the left rotor when the middle one lands on its notch (R76). -/
def carryMiddle (nMiddle : Idx) (o : Bank Idx) : Bank Idx :=
  ⟨if addMod o.middle 1 = nMiddle then addMod o.left 1 else o.left, addMod o.middle 1, o.right⟩

@[simp] theorem carryMiddle_middle (nMiddle : Idx) (o : Bank Idx) :
    (carryMiddle nMiddle o).middle = addMod o.middle 1 := rfl
@[simp] theorem carryMiddle_right (nMiddle : Idx) (o : Bank Idx) : (carryMiddle nMiddle o).right = o.right := rfl

theorem carryMiddle_left_of_eq {nMiddle : Idx} {o : Bank Idx} (h : addMod o.middle 1 = nMiddle) :
    (carryMiddle nMiddle o).left = addMod o.left 1 := if_pos h

theorem carryMiddle_left_of_ne {nMiddle : Idx} {o : Bank Idx} (h : addMod o.middle 1 ≠ nMiddle) :
    (carryMiddle nMiddle o).left = o.left := if_neg h

/-- The right rotor alone turned by `k`. -/
def turnRight (k : Idx) (o : Bank Idx) : Bank Idx := ⟨o.left, o.middle, addMod o.right k⟩

@[simp] theorem turnRight_left (k : Idx) (o : Bank Idx) : (turnRight k o).left = o.left := rfl
@[simp] theorem turnRight_middle (k : Idx) (o : Bank Idx) : (turnRight k o).middle = o.middle := rfl
@[simp] theorem turnRight_right (k : Idx) (o : Bank Idx) : (turnRight k o).right = addMod o.right k := rfl

theorem turnRight_carryMiddle (k nMiddle : Idx) (o : Bank Idx) :
    turnRight k (carryMiddle nMiddle o) = carryMiddle nMiddle (turnRight k o) := rfl

theorem addMod_one_one (x : Idx) : addMod (addMod x 1) 1 = addMod x 2 := by
  apply Fin.ext
  simp only [addMod_val, Fin.val_one, Fin.val_two]
  omega

theorem addMod_one_ne (x : Idx) : addMod x 1 ≠ x := by
  have := x.isLt
  rw [Ne, Fin.ext_iff, addMod_val, Fin.val_one]
  omega

theorem turnRight_one_one (o : Bank Idx) : turnRight 1 (turnRight 1 o) = turnRight 2 o := by
  simp [turnRight, addMod_one_one]

theorem stepOnce_of_carry {nMiddle nRight : Idx} {o : Bank Idx} (h : addMod o.right 1 = nRight) :
    stepOnce nMiddle nRight o = carryMiddle nMiddle (turnRight 1 o) := by
  by_cases hm : addMod o.middle 1 = nMiddle <;> simp [stepOnce, carryMiddle, h, hm]

theorem stepOnce_of_no_carry {nMiddle nRight : Idx} {o : Bank Idx} (h : addMod o.right 1 ≠ nRight) :
    stepOnce nMiddle nRight o = turnRight 1 o := by
  simp [stepOnce, turnRight, h]

/-- STEP1 carries into the middle rotor or turns the right rotor alone. -/
theorem stepOnce_cases (nMiddle nRight : Idx) (o : Bank Idx) :
    (addMod o.right 1 = nRight ∧ stepOnce nMiddle nRight o = carryMiddle nMiddle (turnRight 1 o)) ∨
      (addMod o.right 1 ≠ nRight ∧ stepOnce nMiddle nRight o = turnRight 1 o) := by
  by_cases h : addMod o.right 1 = nRight
  · exact .inl ⟨h, stepOnce_of_carry h⟩
  · exact .inr ⟨h, stepOnce_of_no_carry h⟩

/-- One carry at most in two STEP1s: having just reached its notch, the right rotor leaves it. -/
theorem stepTimes_two_cases (nMiddle nRight : Idx) (o : Bank Idx) :
    ((addMod o.right 1 = nRight ∨ addMod o.right 2 = nRight) ∧
        stepTimes nMiddle nRight 2 o = carryMiddle nMiddle (turnRight 2 o)) ∨
      (¬(addMod o.right 1 = nRight ∨ addMod o.right 2 = nRight) ∧
        stepTimes nMiddle nRight 2 o = turnRight 2 o) := by
  simp only [stepTimes]
  obtain ⟨h1, hfirst⟩ | ⟨h1, hfirst⟩ := stepOnce_cases nMiddle nRight o
  · left
    have h2 : addMod (carryMiddle nMiddle (turnRight 1 o)).right 1 ≠ nRight := by
      simpa [h1] using addMod_one_ne nRight
    rw [hfirst, stepOnce_of_no_carry h2, turnRight_carryMiddle, turnRight_one_one]
    exact ⟨.inl h1, rfl⟩
  · rw [hfirst, ← addMod_one_one]
    obtain ⟨h2, hsecond⟩ | ⟨h2, hsecond⟩ := stepOnce_cases nMiddle nRight (turnRight 1 o)
    · exact .inl ⟨.inr h2, by rw [hsecond, turnRight_one_one]⟩
    · exact .inr ⟨not_or.mpr ⟨h1, h2⟩, by rw [hsecond, turnRight_one_one]⟩

/-- The clauses of R76 and R78 about the rotors to the left, of any rule that moves them exactly when `carry`. -/
theorem carry_clauses {nMiddle k : Idx} {carry : Prop} {o t : Bank Idx}
    (h : (carry ∧ t = carryMiddle nMiddle (turnRight k o)) ∨ (¬carry ∧ t = turnRight k o)) :
    t.right = addMod o.right k ∧
    (carry → t.middle = addMod o.middle 1) ∧ (¬carry → t.middle = o.middle) ∧
    (carry ∧ t.middle = nMiddle → t.left = addMod o.left 1) ∧
    (¬(carry ∧ t.middle = nMiddle) → t.left = o.left) := by
  obtain ⟨hc, rfl⟩ | ⟨hc, rfl⟩ := h
  · refine ⟨rfl, fun _ => rfl, fun hn => absurd hc hn, fun ⟨_, hm⟩ => ?_, fun hn => ?_⟩
    · exact carryMiddle_left_of_eq (o := turnRight k o) hm
    · exact carryMiddle_left_of_ne (o := turnRight k o) (fun hm => hn ⟨hc, hm⟩)
  · exact ⟨rfl, fun hc' => absurd hc' hc, fun _ => rfl, fun ⟨hc', _⟩ => absurd hc' hc, fun _ => rfl⟩

/-- Settles O21: the two cases of STEP1. -/
theorem stepOnceCarries : Obligations.StepOnceCarries := by
  intro nMiddle nRight o
  obtain ⟨hright, hmid, hmid', hleft, hleft'⟩ := carry_clauses (stepOnce_cases nMiddle nRight o)
  rw [← hright] at hmid hmid' hleft hleft'
  exact ⟨congrArg Fin.val hright, fun h => congrArg Fin.val (hmid h), hmid',
    fun h => congrArg Fin.val (hleft h), hleft'⟩

/-- Settles O22: the notch of the code a selector holds is the one STEPCHAR reads, and STEPCHAR unrolls. -/
theorem stepcharRepeatsStepOnce : Obligations.StepcharRepeatsStepOnce := by
  intro P e kMiddle kRight hMiddle hRight
  have hsteps : steppedOffsets P e =
      stepTimes P.rotorNotch[kMiddle] P.rotorNotch[kRight] (stepCount P.stepsPerChar) e.off := by
    simp only [steppedOffsets, readNotch, rotorRow_eq_of_value hMiddle, rotorRow_eq_of_value hRight]
  exact ⟨fun h => by rw [hsteps, h]; rfl, fun h => by rw [hsteps, h]; rfl⟩

/-- Settles O23: the two cases of two STEP1s. -/
theorem doubleStepCarriesOnce : Obligations.DoubleStepCarriesOnce := by
  intro nMiddle nRight o t carry
  have hcarry : carry ↔ addMod o.right 1 = nRight ∨ addMod o.right 2 = nRight := by
    simp only [carry, eq_comm (b := nRight), Fin.ext_iff, addMod_val, Fin.val_one, Fin.val_two]
  obtain ⟨hright, hmid, hmid', hleft, hleft'⟩ := carry_clauses (stepTimes_two_cases nMiddle nRight o)
  rw [← hcarry] at hmid hmid' hleft hleft'
  exact ⟨congrArg Fin.val hright, fun h => congrArg Fin.val (hmid h), hmid',
    fun h => congrArg Fin.val (hleft h), hleft'⟩

/-- The odometer's reading: the right and middle digits counted from the notches, and the left rotor. -/
def reading (nMiddle nRight : Idx) (o : Bank Idx) : Nat :=
  676 * o.left.val + 26 * (subMod o.middle nMiddle).val + (subMod o.right nRight).val

/-- Reaching the notch is the wrap of a digit, from 25 to 0. -/
theorem digit_of_carry {x n : Idx} (h : addMod x 1 = n) :
    (subMod x n).val = 25 ∧ (subMod (addMod x 1) n).val = 0 := by
  have := x.isLt
  subst h
  simp only [subMod_val, addMod_val, Fin.val_one]
  omega

theorem digit_of_no_carry {x n : Idx} (h : addMod x 1 ≠ n) :
    (subMod (addMod x 1) n).val = (subMod x n).val + 1 := by
  have := x.isLt; have := n.isLt
  rw [Ne, Fin.ext_iff, addMod_val, Fin.val_one] at h
  simp only [subMod_val, addMod_val, Fin.val_one]
  omega

theorem reading_lt (nMiddle nRight : Idx) (o : Bank Idx) : reading nMiddle nRight o < 17576 := by
  have := o.left.isLt; have := (subMod o.middle nMiddle).isLt; have := (subMod o.right nRight).isLt
  rw [reading]
  omega

/-- A carry advances the odometer by 26: the middle digit by 1, and where that one wraps the left digit by 1. -/
theorem reading_carryMiddle (nMiddle nRight : Idx) (o : Bank Idx) :
    reading nMiddle nRight (carryMiddle nMiddle o) = (reading nMiddle nRight o + 26) % 17576 := by
  have hlt := reading_lt nMiddle nRight (carryMiddle nMiddle o)
  have := (subMod o.right nRight).isLt
  by_cases hm : addMod o.middle 1 = nMiddle
  · obtain ⟨hdigit, hdigit'⟩ := digit_of_carry hm
    simp only [reading, carryMiddle_left_of_eq hm, carryMiddle_middle, carryMiddle_right, hdigit, hdigit', addMod_val,
      Fin.val_one]
    omega
  · simp only [reading, carryMiddle_left_of_ne hm, carryMiddle_middle, carryMiddle_right,
      digit_of_no_carry hm] at hlt ⊢
    omega

/-- Where the right digit wraps, the odometer falls back by 25. -/
theorem reading_turnRight_of_carry {nRight : Idx} {o : Bank Idx} (h : addMod o.right 1 = nRight) (nMiddle : Idx) :
    reading nMiddle nRight (turnRight 1 o) + 25 = reading nMiddle nRight o := by
  obtain ⟨hdigit, hdigit'⟩ := digit_of_carry h
  simp only [reading, turnRight_left, turnRight_middle, turnRight_right, hdigit, hdigit', Nat.add_zero]

theorem reading_turnRight_of_no_carry {nRight : Idx} {o : Bank Idx} (h : addMod o.right 1 ≠ nRight) (nMiddle : Idx) :
    reading nMiddle nRight (turnRight 1 o) = reading nMiddle nRight o + 1 := by
  simp only [reading, turnRight_left, turnRight_middle, turnRight_right, digit_of_no_carry h, Nat.add_assoc]

/-- STEP1 advances the odometer by 1. -/
theorem reading_stepOnce (nMiddle nRight : Idx) (o : Bank Idx) :
    reading nMiddle nRight (stepOnce nMiddle nRight o) = (reading nMiddle nRight o + 1) % 17576 := by
  obtain ⟨h, heq⟩ | ⟨h, heq⟩ := stepOnce_cases nMiddle nRight o
  · rw [heq, reading_carryMiddle, ← reading_turnRight_of_carry h nMiddle]
  · have hlt := reading_lt nMiddle nRight (turnRight 1 o)
    rw [reading_turnRight_of_no_carry h] at hlt
    rw [heq, reading_turnRight_of_no_carry h, Nat.mod_eq_of_lt hlt]

theorem reading_stepTimes (nMiddle nRight : Idx) (k : Nat) (o : Bank Idx) :
    reading nMiddle nRight (stepTimes nMiddle nRight k o) = (reading nMiddle nRight o + k) % 17576 := by
  induction k generalizing o with
  | zero => exact (Nat.mod_eq_of_lt (reading_lt nMiddle nRight o)).symm
  | succ k ih => rw [stepTimes, ih, reading_stepOnce, Nat.mod_add_mod, Nat.add_assoc, Nat.add_comm 1 k]

theorem subMod_right_cancel {x y n : Idx} (h : subMod x n = subMod y n) : x = y := by
  rw [← addMod_subMod x n, h, addMod_subMod]

/-- The right digit is the reading modulo 26. -/
theorem right_eq_of_reading {nMiddle nRight : Idx} {o o' : Bank Idx}
    (h : reading nMiddle nRight o % 26 = reading nMiddle nRight o' % 26) : o.right = o'.right := by
  have := (subMod o.right nRight).isLt; have := (subMod o'.right nRight).isLt
  refine subMod_right_cancel (n := nRight) (Fin.ext ?_)
  simp only [reading] at h
  omega

/-- The middle digit is settled by the reading modulo 676. -/
theorem middle_eq_of_reading {nMiddle nRight : Idx} {o o' : Bank Idx}
    (h : reading nMiddle nRight o % 676 = reading nMiddle nRight o' % 676) : o.middle = o'.middle := by
  have := (subMod o.right nRight).isLt; have := (subMod o'.right nRight).isLt
  have := (subMod o.middle nMiddle).isLt; have := (subMod o'.middle nMiddle).isLt
  refine subMod_right_cancel (n := nMiddle) (Fin.ext ?_)
  simp only [reading] at h
  omega

theorem reading_injective (nMiddle nRight : Idx) : Function.Injective (reading nMiddle nRight) := by
  intro o o' h
  have hright : o.right = o'.right := right_eq_of_reading (congrArg (· % 26) h)
  have hmiddle : o.middle = o'.middle := middle_eq_of_reading (congrArg (· % 676) h)
  have hleft : o.left = o'.left := by
    simp only [reading, hright, hmiddle] at h
    exact Fin.ext (by omega)
  cases o; cases o'; simp_all

theorem stepTimes_cycle (nMiddle nRight : Idx) (o : Bank Idx) : stepTimes nMiddle nRight 17576 o = o := by
  apply reading_injective nMiddle nRight
  rw [reading_stepTimes, Nat.add_mod_right, Nat.mod_eq_of_lt (reading_lt nMiddle nRight o)]

/-- Settles O25: the difference of the two readings is the number of STEP1s that lead from the one to the other. -/
theorem stepperIsOneCycle : Obligations.StepperIsOneCycle := by
  intro nMiddle nRight o o'
  refine ⟨⟨(reading nMiddle nRight o' + 17576 - reading nMiddle nRight o) % 17576, Nat.mod_lt _ (by decide), ?_⟩,
    stepTimes_cycle nMiddle nRight o⟩
  have := reading_lt nMiddle nRight o; have := reading_lt nMiddle nRight o'
  apply reading_injective nMiddle nRight
  rw [reading_stepTimes]
  omega

/-- Settles O24: round the cycle, 17575 further STEP1s undo one. -/
theorem stepOnceIsBijective : Obligations.StepOnceIsBijective := by
  intro nMiddle nRight
  refine Function.bijective_iff_has_inverse.mpr ⟨stepTimes nMiddle nRight 17575, fun o => ?_, fun o => ?_⟩
  · exact (stepTimes_add nMiddle nRight 1 17575 o).symm.trans (stepTimes_cycle nMiddle nRight o)
  · exact (stepTimes_add nMiddle nRight 17575 1 o).symm.trans (stepTimes_cycle nMiddle nRight o)

theorem stepTimes_eq_iterate (nMiddle nRight : Idx) (k : Nat) :
    stepTimes nMiddle nRight k = (stepOnce nMiddle nRight)^[k] := by
  induction k with
  | zero => rfl
  | succ k ih => funext o; rw [stepTimes, ih, Function.iterate_succ_apply]

theorem stepTimes_iterate (nMiddle nRight : Idx) (m n : Nat) :
    (stepTimes nMiddle nRight m)^[n] = stepTimes nMiddle nRight (m * n) := by
  rw [stepTimes_eq_iterate, stepTimes_eq_iterate, Function.iterate_mul]

theorem stepTimes_26_right (nMiddle nRight : Idx) (o : Bank Idx) :
    (stepTimes nMiddle nRight 26 o).right = o.right := by
  apply right_eq_of_reading (nMiddle := nMiddle) (nRight := nRight)
  rw [reading_stepTimes]
  omega

/-- Settles O26: 26 and 676 leave the digits to their right as they were, and 13 times two STEP1s are 26. -/
theorem rotorsWrapAround : Obligations.RotorsWrapAround := by
  intro nMiddle nRight o
  refine ⟨stepTimes_26_right nMiddle nRight o, ?_, ?_⟩
  · apply middle_eq_of_reading (nMiddle := nMiddle) (nRight := nRight)
    rw [reading_stepTimes]
    omega
  · rw [stepTimes_iterate]
    exact stepTimes_26_right nMiddle nRight o

end Sys2Proof.Machine
end

section
/-! PROOFS. STEP and the letter commands move the rotors alike: a letter enciphered is a STEP and one byte of output
(`41_stepper.md` R75, R81, R84). -/

namespace Sys2Proof.Machine

theorem exec_step_of_ready {s : State} (hs : s.Ready) : exec .step s = .next (stepChar s) := by
  obtain ⟨hf, hc⟩ := hs
  exact execStep_next.mpr ⟨hf, .inl ⟨hc, rfl⟩⟩

/-- ENCCHR of an uppercase letter that answers does what STEP does, and emits one byte. -/
theorem exec_encchr_eq_emit {s t : State} {c : Byte} (hs : s.Ready) (hc : isUpper c = true)
    (h : exec (.encchr c) s = .next t) : ∃ y, t = emit y (stepChar s) := by
  obtain ⟨-, hconf⟩ := hs
  obtain ⟨-, ⟨-, l, -, hl⟩ | ⟨-, hnone, -⟩ | ⟨hn, -⟩⟩ := execEncchr_next.mp h
  · obtain ⟨y, -, ht⟩ := encipher_next.mp hl
    exact ⟨letterOf y, ht⟩
  · simp [(letterIdx_eq_none_iff c).mp hnone] at hc
  · simp [hconf] at hn

/-- MSGCHR of a letter of either case that answers does what STEP does, and emits one byte. -/
theorem exec_msgchr_eq_emit {s t : State} {c : Byte} (hs : s.Ready) (hc : isAlpha c = true)
    (h : exec (.msgchr c) s = .next t) : ∃ y, t = emit y (stepChar s) := by
  obtain ⟨-, hconf⟩ := hs
  obtain ⟨-, ⟨-, -, l, -, hl⟩ | ⟨-, hn, -⟩ | ⟨hn, -⟩⟩ := messageByte_next.mp h
  · obtain ⟨y, -, ht⟩ := encipher_next.mp hl
    exact ⟨letterOf y, ht⟩
  · simp [hc] at hn
  · simp [hconf] at hn

theorem faulted_raise (f : FaultCause) (info : Byte) (s : State) : Faulted (causeCode f) info s (raise f info s) := by
  simp [Faulted]

/-- Settles O27: each clause is one case of STEP. -/
theorem stepRunsStepchar : Obligations.StepRunsStepchar := by
  refine ⟨fun s hs => exec_step_of_ready hs, fun s hf hc => ?_, fun s t c hs hc h => ?_⟩
  · exact ⟨_, execStep_next.mpr ⟨hf, .inr ⟨hc, rfl⟩⟩, faulted_raise .notConfigured 0x04 s⟩
  · obtain ⟨y, rfl⟩ := exec_encchr_eq_emit hs hc h
    exact exec_step_of_ready hs

/-- Settles O28: all three leave the record after one STEPCHAR. -/
theorem steppingIgnoresTheLetter : Obligations.SteppingIgnoresTheLetter := by
  intro s t t' u c c' hs hc hc' h h' hu
  obtain ⟨y, rfl⟩ := exec_encchr_eq_emit hs hc h
  obtain ⟨y', rfl⟩ := exec_msgchr_eq_emit hs hc' h'
  obtain rfl := next_eq_next.mp ((exec_step_of_ready hs).symm.trans hu)
  exact ⟨rfl, rfl⟩

end Sys2Proof.Machine
end

section
/-! PROOFS. The signal path. Under the bijection premise the backward pass of a rotor solves the equation of its forward
pass, so PATH is the plugboard and the rotors conjugating the reflector; reciprocity is read off that equation
(`42_pipeline.md` R85 to R99). -/

namespace Sys2Proof.Machine

/-- `subMod` is the non-negative remainder of the difference (`00_scope.md` R10). -/
theorem subMod_val_int (x o : Idx) : ((subMod x o).val : Int) = ((x.val : Int) - (o.val : Int)) % 26 := by
  have := o.isLt
  rw [subMod_val]
  omega

/-- FWD1 with the wiring of the slot by name (R87). -/
theorem fwd1_eq (P : Params) (e : EngineRecord) (i : Slot) (l : Idx) :
    fwd1 P e i l = subMod (slotWiring P e i)[addMod l (bankAt e.off i)] (bankAt e.off i) := rfl

/-- Settles O29: the wiring and the offset of the slot, and the remainder `subMod` takes. -/
theorem forwardRotorRule : Obligations.ForwardRotorRule := by
  intro P e i sel o l p k hslot hk hp
  obtain ⟨hwiring, rfl⟩ := slotWiring_of_slotHolds (P := P) hslot hk
  obtain rfl : p = addMod l (bankAt e.off i) := Fin.ext hp
  rw [fwd1_eq, hwiring, subMod_val_int]

/-- Settles O30: BWD1 finds the position `p`, and `subMod` takes the remainder. -/
theorem backwardRotorRule : Obligations.BackwardRotorRule := by
  intro P e i sel o l p k hslot hk hperm hp
  obtain ⟨hwiring, rfl⟩ := slotWiring_of_slotHolds (P := P) hslot hk
  rw [← hwiring] at hperm hp
  refine ⟨subMod p (bankAt e.off i), ?_, subMod_val_int p _⟩
  simp only [bwd1_eq_some_iff hperm, addMod_subMod]
  exact Fin.ext hp

/-- BWD has a value when the three rotors have one in turn (R91). -/
theorem bwd_eq_some_iff (P : Params) (e : EngineRecord) (l c : Idx) :
    bwd P e l = some c ↔
      ∃ a b, bwd1 P e .left l = some a ∧ bwd1 P e .middle a = some b ∧ bwd1 P e .right b = some c := by
  simp only [bwd, Option.bind_eq_some_iff]
  exact ⟨fun ⟨b, ⟨a, ha, hb⟩, hc⟩ => ⟨a, b, ha, hb, hc⟩, fun ⟨a, b, ha, hb, hc⟩ => ⟨b, ⟨a, ha, hb⟩, hc⟩⟩

/-- PATH has a value when BWD has one (R85). -/
theorem path_eq_some_iff (P : Params) (e : EngineRecord) (l y : Idx) :
    path P e l = some y ↔ ∃ c, bwd P e (reflect P e (fwd P e (plugSwap e l))) = some c ∧ plugSwap e c = y :=
  Option.map_eq_some_iff

/-- Settles O31: the stages of PATH, with those of BWD, and the row of the reflector that `refsel` numbers. -/
theorem pathStagesInOrder : Obligations.PathStagesInOrder := by
  intro P e l y r hr
  obtain rfl := reflectorRow_eq_of_value hr
  rw [path_eq_some_iff]
  constructor
  · rintro ⟨c, hc, rfl⟩
    obtain ⟨a, b, ha, hb, hc⟩ := (bwd_eq_some_iff P e _ c).mp hc
    exact ⟨a, b, c, ha, hb, hc, rfl⟩
  · rintro ⟨a, b, c, ha, hb, hc, rfl⟩
    exact ⟨c, (bwd_eq_some_iff P e _ c).mpr ⟨a, b, ha, hb, hc⟩, rfl⟩

/-- BWD1 solves the equation of FWD1 (R95). -/
theorem bwd1_eq_some_iff_fwd1 {P : Params} {e : EngineRecord} {i : Slot} (h : isPermutation (slotWiring P e i) = true)
    (l m : Idx) : bwd1 P e i l = some m ↔ fwd1 P e i m = l := by
  rw [bwd1_eq_some_iff h, fwd1_eq]
  constructor
  · intro hm
    rw [hm, subMod_addMod]
  · rintro rfl
    rw [addMod_subMod]

theorem bwd1_fwd1 {P : Params} {e : EngineRecord} {i : Slot} (h : isPermutation (slotWiring P e i) = true) (l : Idx) :
    bwd1 P e i (fwd1 P e i l) = some l :=
  (bwd1_eq_some_iff_fwd1 h _ l).mpr rfl

theorem fwd1_bijective {P : Params} {e : EngineRecord} {i : Slot} (h : isPermutation (slotWiring P e i) = true) :
    Function.Bijective (fwd1 P e i) := by
  refine Finite.injective_iff_bijective.mp fun l l' hll => Option.some.inj ?_
  rw [← bwd1_fwd1 h l, hll, bwd1_fwd1 h]

/-- BWD solves the equation of FWD (R95). -/
theorem bwd_eq_some_iff_fwd {P : Params} {e : EngineRecord} (h : slotsBijective P e) (l m : Idx) :
    bwd P e l = some m ↔ fwd P e m = l := by
  simp only [bwd_eq_some_iff, bwd1_eq_some_iff_fwd1 (h _), fwd]
  exact ⟨fun ⟨_, _, ha, hb, hc⟩ => by rw [hc, hb, ha], fun hm => ⟨_, _, hm, rfl, rfl⟩⟩

theorem fwd_bijective {P : Params} {e : EngineRecord} (h : slotsBijective P e) : Function.Bijective (fwd P e) :=
  (fwd1_bijective (h .left)).comp ((fwd1_bijective (h .middle)).comp (fwd1_bijective (h .right)))

/-- Settles O32: for one rotor and for the three, the backward pass solves the equation of a bijection. -/
theorem backwardInvertsForward : Obligations.BackwardInvertsForward := by
  refine ⟨fun P e i h => ⟨bwd1_fwd1 h, fun l => ?_, fwd1_bijective h⟩, fun P e h l => ⟨?_, ?_⟩⟩
  · obtain ⟨m, hm⟩ := (fwd1_bijective h).surjective l
    exact ⟨m, (bwd1_eq_some_iff_fwd1 h l m).mpr hm, hm⟩
  · exact (bwd_eq_some_iff_fwd h _ l).mpr rfl
  · obtain ⟨m, hm⟩ := (fwd_bijective h).surjective l
    exact ⟨m, (bwd_eq_some_iff_fwd h l m).mpr hm, hm⟩

/-- PATH through the equation of FWD: the letter that the last plugboard pass receives is the one FWD takes to the
reflector's answer. -/
theorem path_eq_some_iff_fwd {P : Params} {e : EngineRecord} (h : slotsBijective P e) (l y : Idx) :
    path P e l = some y ↔ ∃ c, fwd P e c = reflect P e (fwd P e (plugSwap e l)) ∧ plugSwap e c = y := by
  simp only [path_eq_some_iff, bwd_eq_some_iff_fwd h]

theorem exists_path {P : Params} {e : EngineRecord} (h : slotsBijective P e) (l : Idx) : ∃ y, path P e l = some y := by
  obtain ⟨c, hc⟩ := (fwd_bijective h).surjective (reflect P e (fwd P e (plugSwap e l)))
  exact ⟨plugSwap e c, (path_eq_some_iff_fwd h l _).mpr ⟨c, hc, rfl⟩⟩

/-- One value of a backward pass shows the premise, for the inverse lookup has none without it (`20_memory.md` R34). -/
theorem isPermutation_of_bwd1 {P : Params} {e : EngineRecord} {i : Slot} {l m : Idx} (h : bwd1 P e i l = some m) :
    isPermutation (slotWiring P e i) = true := by
  by_contra hn
  simp [bwd1, inverseLookup_of_not (Bool.eq_false_of_not_eq_true hn)] at h

theorem slotsBijective_of_path {P : Params} {e : EngineRecord} {l y : Idx} (h : path P e l = some y) :
    slotsBijective P e := by
  obtain ⟨c, hbwd, -⟩ := (path_eq_some_iff P e l y).mp h
  obtain ⟨a, b, ha, hb, hc⟩ := (bwd_eq_some_iff P e _ c).mp hbwd
  intro i
  cases i with
  | left => exact isPermutation_of_bwd1 ha
  | middle => exact isPermutation_of_bwd1 hb
  | right => exact isPermutation_of_bwd1 hc

/-- Settles O33: a value for one letter already shows the premise, and the premise gives every letter a value. -/
theorem pathDefinedUnderPremise : Obligations.PathDefinedUnderPremise := by
  intro P e
  refine ⟨fun h => ?_, fun h l => Option.isSome_iff_exists.mpr (exists_path h l)⟩
  obtain ⟨y, hy⟩ := Option.isSome_iff_exists.mp (h 0)
  exact slotsBijective_of_path hy

theorem bijective_of_isPermutation {w : Table} (h : isPermutation w = true) :
    Function.Bijective (fun p : Idx => w[p]) :=
  ⟨injective_of_isPermutation h, surjective_of_isPermutation h⟩

/-- Settles O34: plugboard, rotors and reflector are bijections, so the equation of PATH has one solution in the letter. -/
theorem pathIsPermutation : Obligations.PathIsPermutation := by
  intro P e h hpb hrefl y
  have hplug : Function.Bijective (plugSwap e) := bijective_of_isPermutation hpb
  have hreflect : Function.Bijective (reflect P e) := bijective_of_isPermutation hrefl
  have hinward : Function.Bijective (fun l => reflect P e (fwd P e (plugSwap e l))) :=
    hreflect.comp ((fwd_bijective h).comp hplug)
  obtain ⟨c, hc⟩ := hplug.surjective y
  obtain ⟨l, hl⟩ := hinward.surjective (fwd P e c)
  refine ⟨l, (path_eq_some_iff_fwd h l y).mpr ⟨c, hl.symm, hc⟩, fun l' hl' => hinward.injective ?_⟩
  obtain ⟨c', hc', hy⟩ := (path_eq_some_iff_fwd h l' y).mp hl'
  obtain rfl := hplug.injective (hy.trans hc.symm)
  exact hc'.symm.trans hl.symm

/-- With an involutive plugboard PATH relates two letters whose ways to the reflector end at a letter and at the
reflector's answer to it. -/
theorem path_eq_some_iff_of_involutive {P : Params} {e : EngineRecord} (h : slotsBijective P e) (hpb : Involutive e.pb)
    (l y : Idx) :
    path P e l = some y ↔ fwd P e (plugSwap e y) = reflect P e (fwd P e (plugSwap e l)) := by
  have hplug : ∀ p, plugSwap e (plugSwap e p) = p := hpb
  rw [path_eq_some_iff_fwd h]
  constructor
  · rintro ⟨c, hc, rfl⟩
    rwa [hplug]
  · intro hy
    exact ⟨plugSwap e y, hy, hplug y⟩

/-- That relation is symmetric when the reflector is involutive too (R97, R98). -/
theorem path_comm {P : Params} {e : EngineRecord} (h : reciprocal P e) (l y : Idx) :
    path P e l = some y ↔ path P e y = some l := by
  obtain ⟨hslots, hpb, hrefl⟩ := h
  have hreflect : Function.Involutive (reflect P e) := hrefl
  rw [path_eq_some_iff_of_involutive hslots hpb, path_eq_some_iff_of_involutive hslots hpb, ← hreflect.eq_iff, eq_comm]

/-- Settles O35: PATH has a value, and relates the letters both ways. -/
theorem pathIsInvolution : Obligations.PathIsInvolution := by
  intro P e h l
  obtain ⟨y, hy⟩ := exists_path h.1 l
  exact ⟨y, hy, (path_comm h l y).mp hy⟩

/-- Settles O36: a letter that PATH fixes gives one that the reflector fixes. -/
theorem noLetterEnciphersToItself : Obligations.NoLetterEnciphersToItself := by
  intro P e ⟨hslots, hpb, _⟩ hfix l hl
  exact hfix _ ((path_eq_some_iff_of_involutive hslots hpb l l).mp hl).symm

/-- ENCCHR of an uppercase letter in READY: a STEPCHAR, and PATH of the letter at the new offsets (`43_encrypt.md`
R101). -/
theorem exec_encchr_next_of_ready {s t : State} {c : Byte} {l : Idx} (hs : s.Ready) (hl : letterIdx c = some l) :
    exec (.encchr c) s = .next t ↔
      ∃ y, path s.cfg (stepChar s).eng l = some y ∧ t = emit (letterOf y) (stepChar s) := by
  obtain ⟨hf, hc⟩ := hs
  rw [← encipher_next]
  refine execEncchr_next.trans ?_
  simp [hf, hc, hl]

theorem letterOf_eq_iff {y : Byte} {m : Idx} (hy : letterIdx y = some m) (v : Idx) : letterOf v = y ↔ v = m := by
  obtain ⟨hback, hforth, -⟩ := letterCodesAreInverse
  constructor
  · rintro rfl
    exact Option.some.inj ((hback v).symm.trans hy)
  · rintro rfl
    exact hforth y v hy

/-- What ENCCHR emits is what PATH gives. -/
theorem exec_encchr_emits_iff {s : State} {x y : Byte} {l m : Idx} (hs : s.Ready) (hx : letterIdx x = some l)
    (hy : letterIdx y = some m) :
    (∃ t, exec (.encchr x) s = .next t ∧ t.out = s.out ++ [y]) ↔ path s.cfg (stepChar s).eng l = some m := by
  constructor
  · rintro ⟨t, ht, hout⟩
    obtain ⟨v, hv, rfl⟩ := (exec_encchr_next_of_ready hs hx).mp ht
    obtain rfl := (letterOf_eq_iff hy v).mp (by simpa using hout)
    exact hv
  · intro hm
    exact ⟨_, (exec_encchr_next_of_ready hs hx).mpr ⟨m, hm, rfl⟩, by simp [(letterOf_eq_iff hy m).mpr rfl]⟩

/-- Stepping moves the offsets only, so it keeps the premises of reciprocity (R98). -/
theorem reciprocal_stepChar {s : State} (h : reciprocal s.cfg s.eng) : reciprocal s.cfg (stepChar s).eng := h

/-- Settles O44: both engines step to one record, and there PATH relates the two letters both ways. -/
theorem charactersAreReciprocal : Obligations.CharactersAreReciprocal := by
  intro s s' x y hs hs' hcfg heng h hx hy
  obtain ⟨l, hl⟩ := exists_letterIdx hx
  obtain ⟨m, hm⟩ := exists_letterIdx hy
  have hrec : reciprocal s.cfg (stepChar s).eng := reciprocal_stepChar h
  have hstep : (stepChar s').eng = (stepChar s).eng := by
    rw [stepChar_eq_advance, stepChar_eq_advance, advance_eng_congr 1 [] hcfg heng]
  refine ⟨?_, ?_⟩
  · rw [exec_encchr_emits_iff hs hl hm, exec_encchr_emits_iff hs' hm hl, hcfg, hstep]
    exact path_comm hrec l m
  · obtain ⟨v, hv⟩ := exists_path hrec.1 l
    obtain ⟨v', hv'⟩ := exists_path hrec.1 m
    exact ⟨_, _, (exec_encchr_next_of_ready hs hl).mpr ⟨v, hv, rfl⟩,
      (exec_encchr_next_of_ready hs' hm).mpr ⟨v', by rw [hcfg, hstep, hv'], rfl⟩, hstep.symm⟩

end Sys2Proof.Machine
end

section
/-! PROOFS. The acceptance checks, and what one enciphered letter does: ENCCHR and MSGCHR (`43_encrypt.md` R101 to R104,
`60_exceptions.md` R117). -/

namespace Sys2Proof.Machine

theorem whenConfigured_of_ready {s : State} (hs : s.Ready) (op : Byte) (k : Host.Outcome State Fault Refusal) :
    whenConfigured op s k = k := by
  obtain ⟨hf, hc⟩ := hs
  simp [whenConfigured, whenAccepting, hf, hc]

/-- The opcode byte only matters to the fault of an engine that is not configured. -/
theorem whenConfigured_of_configured {s : State} (hc : s.configured = true) (op : Byte)
    (k : Host.Outcome State Fault Refusal) : whenConfigured op s k = whenAccepting s k := by
  rw [whenConfigured, if_pos hc]

/-- NotConfigured comes before everything else that a command does (R117). -/
theorem exists_faulted_of_unconfigured {s : State} (hf : s.fault = false) (hc : s.configured = false) (op : Byte)
    (k : Host.Outcome State Fault Refusal) : ∃ t, whenConfigured op s k = .next t ∧ Faulted 5 op s t :=
  ⟨_, whenConfigured_next.mpr ⟨hf, .inr ⟨hc, rfl⟩⟩, faulted_raise .notConfigured op s⟩

theorem isUpper_toUpper_iff (c : Byte) : isUpper (toUpper c) = true ↔ isAlpha c = true := by
  refine ⟨fun h => ?_, isUpper_toUpper⟩
  by_cases hl : isLower c = true
  · simp [isAlpha, hl]
  · rw [toUpper, if_neg hl] at h
    simp [isAlpha, h]

theorem toUpper_of_not_isAlpha {c : Byte} (h : isAlpha c = false) : toUpper c = c := by
  rw [isAlpha, Bool.or_eq_false_iff] at h
  simp [toUpper, h.2]

theorem toUpper_toUpper (c : Byte) : toUpper (toUpper c) = toUpper c := by
  cases h : isAlpha c with
  | true => exact toUpper_of_isUpper (isUpper_toUpper h)
  | false => rw [toUpper_of_not_isAlpha h, toUpper_of_not_isAlpha h]

theorem letterIdx_toUpper_eq_none {c : Byte} (h : isAlpha c = false) : letterIdx (toUpper c) = none := by
  rw [letterIdx_eq_none_iff, Bool.eq_false_iff, Ne, isUpper_toUpper_iff, h]
  exact Bool.false_ne_true

/-- MSGCHR reads its operand through the index of the uppercase form alone (R102, R104). -/
theorem messageByte_eq_elim (c : Byte) (s : State) :
    messageByte c s = whenConfigured 0x03 s ((letterIdx (toUpper c)).elim (.next s) (fun l => encipher l s)) := by
  rw [messageByte]
  cases h : isAlpha c with
  | true =>
    obtain ⟨l, hl⟩ := exists_letterIdx (isUpper_toUpper h)
    simp [hl]
  | false => simp [letterIdx_toUpper_eq_none h]

theorem execEncchr_of_letterIdx {c : Byte} {l : Idx} (hl : letterIdx c = some l) (s : State) :
    execEncchr c s = whenConfigured 0x02 s (encipher l s) := by
  simp only [execEncchr, hl]

/-- Settles O39: both forms have one index, and the opcodes differ only in the fault of an unconfigured engine. -/
theorem messageCaseIsFolded : Obligations.MessageCaseIsFolded := by
  refine ⟨fun s c => ?_, fun s c hc hup => ?_⟩
  · simp only [exec, execMsgchr, messageByte_eq_elim, toUpper_toUpper]
  · obtain ⟨l, hl⟩ := exists_letterIdx hup
    simp only [exec, execMsgchr, messageByte_eq_elim, execEncchr_of_letterIdx hl, toUpper_of_isUpper hup, hl,
      Option.elim_some, whenConfigured_of_configured hc]

theorem messageByte_of_not_isAlpha {s : State} {c : Byte} (hs : s.Ready) (h : isAlpha c = false) :
    messageByte c s = .next s := by
  rw [messageByte_eq_elim, whenConfigured_of_ready hs, letterIdx_toUpper_eq_none h, Option.elim_none]

theorem messageByte_of_letterIdx {s : State} {c : Byte} {l : Idx} (hs : s.Ready)
    (hl : letterIdx (toUpper c) = some l) : messageByte c s = encipher l s := by
  rw [messageByte_eq_elim, whenConfigured_of_ready hs, hl, Option.elim_some]

/-- Stepping moves the offsets only, so the premise still holds at the new ones. -/
theorem exists_path_stepped {P : Params} {e : EngineRecord} (h : slotsBijective P e) (l : Idx) :
    ∃ y, path P (steppedRecord P e) l = some y :=
  exists_path (e := steppedRecord P e) h l

theorem encipher_of_path {s : State} {l y : Idx} (h : path s.cfg (steppedRecord s.cfg s.eng) l = some y) :
    encipher l s = .next (advance 1 [letterOf y] s) :=
  encipher_next.mpr ⟨y, h, (emit_stepChar _ _).symm⟩

theorem encipher_of_path_eq_none {s : State} {l : Idx} (h : path s.cfg (steppedRecord s.cfg s.eng) l = none) :
    encipher l s = .refused .wiringNotBijective := by
  have h' : path s.cfg (stepChar s).eng l = none := h
  simp only [encipher, h']

/-- A letter enciphered with bijective wirings: the stepped record, and one letter more of output. -/
theorem encipher_completes {s : State} (h : slotsBijective s.cfg s.eng) (l : Idx) :
    ∃ y, path s.cfg (steppedRecord s.cfg s.eng) l = some y ∧
      encipher l s = .next { s with
        eng := steppedRecord s.cfg s.eng, out := s.out ++ [BitVec.ofNat 8 (0x41 + y.val)] } := by
  obtain ⟨y, hy⟩ := exists_path_stepped h l
  exact ⟨y, hy, encipher_next.mpr ⟨y, hy, rfl⟩⟩

/-- Settles O37: an uppercase letter is enciphered, any other byte has no index, and an engine that is not configured
faults first. -/
theorem encchrEnciphers : Obligations.EncchrEnciphers := by
  refine ⟨fun s c l hs hup hl hbij => ?_, fun s c ⟨hf, hc⟩ hup => ?_, fun s c hf hc => ?_⟩
  · have hidx : letterIdx c = some l := (letterIdx_eq_some_iff c l).mpr ⟨hup, hl⟩
    have hexec : exec (.encchr c) s = encipher l s :=
      (execEncchr_of_letterIdx hidx s).trans (whenConfigured_of_ready hs _ _)
    rw [hexec]
    exact encipher_completes hbij l
  · have hidx : letterIdx c = none := (letterIdx_eq_none_iff c).mpr hup
    exact ⟨_, execEncchr_next.mpr ⟨hf, .inr (.inl ⟨hc, hidx, rfl⟩)⟩, faulted_raise .badSymbol c s⟩
  · exact exists_faulted_of_unconfigured hf hc _ _

/-- Settles O38: a letter of either case is enciphered, any other byte is dropped, and an engine that is not configured
faults first. -/
theorem msgchrFiltersAndEnciphers : Obligations.MsgchrFiltersAndEnciphers := by
  refine ⟨fun s c l hs ha hl hbij => ?_, fun s c hs ha => messageByte_of_not_isAlpha hs ha, fun s c hf hc => ?_⟩
  · have hidx : letterIdx (toUpper c) = some l := (letterIdx_eq_some_iff _ l).mpr ⟨isUpper_toUpper ha, hl⟩
    have hexec : exec (.msgchr c) s = encipher l s := messageByte_of_letterIdx hs hidx
    rw [hexec]
    exact encipher_completes hbij l
  · exact exists_faulted_of_unconfigured hf hc _ _

end Sys2Proof.Machine
end

section
/-! PROOFS. RDOFF, and the start letters after a CONSTRUCT (`43_encrypt.md` R108, `40_construct.md` R66). -/

namespace Sys2Proof.Machine

theorem exec_rdoff_of_ready {s : State} (hs : s.Ready) :
    exec .rdoff s = .next { s with out := s.out ++ offsetLetters s.eng.off } := by
  obtain ⟨hf, hc⟩ := hs
  refine execRdoff_next.mpr ⟨hf, .inl ⟨hc, ?_⟩⟩
  rw [emit_offsetLetters]
  simp [advance, stepTimes]

/-- Of two checks in a row both pass. -/
theorem bind_eq_ok_iff {α β : Type} {x : Except Raised α} {f : α → Except Raised β} {b : β} :
    x >>= f = .ok b ↔ ∃ a, x = .ok a ∧ f a = .ok b := by
  cases x with
  | error e => simp [bind, Except.bind]
  | ok a => simp [bind, Except.bind]

theorem letterOf_of_decodeStart {c : Byte} {o : Idx} (h : decodeStart c = .ok o) : letterOf o = c := by
  unfold decodeStart at h
  split at h
  · next i hi =>
    obtain rfl := Except.ok.inj h
    exact (letterOf_eq_iff hi i).mpr rfl
  · cases h

theorem offsetLetters_of_decodeStarts {c0 c1 c2 : Byte} {o : Bank Idx} (h : decodeStarts c0 c1 c2 = .ok o) :
    offsetLetters o = [c0, c1, c2] := by
  obtain ⟨left, hl, h⟩ := bind_eq_ok_iff.mp h
  obtain ⟨middle, hm, h⟩ := bind_eq_ok_iff.mp h
  obtain ⟨right, hr, h⟩ := bind_eq_ok_iff.mp h
  obtain rfl := Except.ok.inj h
  rw [offsetLetters, letterOf_of_decodeStart hl, letterOf_of_decodeStart hm, letterOf_of_decodeStart hr]

/-- The offsets of a committed record are those of the start letters. -/
theorem offsetLetters_of_checkedRecord {r : ConfigRecord} {plug : List Byte} {e : EngineRecord}
    (h : checkedRecord r plug = .ok e) : offsetLetters e.off = [r.startLeft, r.startMiddle, r.startRight] := by
  obtain ⟨refsel, -, h⟩ := bind_eq_ok_iff.mp h
  obtain ⟨rsel, -, h⟩ := bind_eq_ok_iff.mp h
  obtain ⟨off, hoff, h⟩ := bind_eq_ok_iff.mp h
  obtain ⟨pb, -, h⟩ := bind_eq_ok_iff.mp h
  obtain rfl := Except.ok.inj h
  exact offsetLetters_of_decodeStarts hoff

/-- A CONSTRUCT that leaves the engine configured has committed a record, and the engine is READY. -/
theorem exists_commit_of_configured {r : ConfigRecord} {plug : List Byte} {s t : State}
    (h : exec (.construct r plug) s = .next t) (hc : t.configured = true) :
    s.fault = false ∧ ∃ e, checkedRecord r plug = .ok e ∧ t = commit e s := by
  obtain ⟨hf, hcommit | ⟨f, -, rfl⟩⟩ := execConstruct_next.mp h
  · exact ⟨hf, hcommit⟩
  · simp at hc

/-- Settles O40: the three letters are those of the offsets, which a CONSTRUCT took from the start letters. -/
theorem rdoffEmitsOffsets : Obligations.RdoffEmitsOffsets := by
  refine ⟨fun s hs => exec_rdoff_of_ready hs, fun s hf hc => exists_faulted_of_unconfigured hf hc _ _,
    fun s t r plug h hc => ?_⟩
  obtain ⟨hf, e, he, rfl⟩ := exists_commit_of_configured h hc
  have hready : (commit e s).Ready := ⟨hf, hc⟩
  rw [exec_rdoff_of_ready hready, commit_eng, offsetLetters_of_checkedRecord he]

end Sys2Proof.Machine
end

section
/-! PROOFS. Messages. Each byte of a message in a READY engine is an advance, by one letter for a letter and by nothing
for any other byte; a message is the advances of its bytes one after the other (`43_encrypt.md` R105 to R110). -/

namespace Sys2Proof.Machine

theorem SameEngine.ready {s s' : State} (h : SameEngine s s') (hs : s.Ready) : s'.Ready :=
  ⟨h.fault.trans hs.1, h.configured.trans hs.2⟩

/-- PATH reads the parameters and the record, so it is one of engines that are the same. -/
theorem SameEngine.path_stepped {s s' : State} (h : SameEngine s s') (hs : s.Ready) (l : Idx) :
    path s'.cfg (steppedRecord s'.cfg s'.eng) l = path s.cfg (steppedRecord s.cfg s.eng) l := by
  rw [h.cfg, h.eng hs.2]

theorem SameEngine.trans {s s' s'' : State} (h : SameEngine s s') (h' : SameEngine s' s'') : SameEngine s s'' :=
  ⟨h'.cfg.trans h.cfg, h'.configured.trans h.configured, h'.fault.trans h.fault,
    fun hc => (h'.eng (h.configured.trans hc)).trans (h.eng hc)⟩

/-- What a meaning does to `s` it does to every state with the same engine. -/
theorem ActsAs.of_sameEngine {k : State → Host.Outcome State Fault Refusal} {s s' : State} {g : State → State}
    (h : ActsAs k s g) (hs : SameEngine s s') : ActsAs k s' g :=
  fun s'' hs'' => h s'' (hs.trans hs'')

/-- The letters emitted are no part of the engine. -/
theorem sameEngine_advance (n : Nat) (xs ys : List Byte) (s : State) :
    SameEngine (advance n xs s) (advance n ys s) := ⟨rfl, rfl, rfl, fun _ => rfl⟩

theorem messageByte_actsAs_of_not_isAlpha {s : State} {c : Byte} (hs : s.Ready) (h : isAlpha c = false) :
    ActsAs (messageByte c) s (advance 0 []) := by
  intro s' hs'
  rw [messageByte_of_not_isAlpha (hs'.ready hs) h, advance_zero_nil]

theorem messageByte_actsAs_of_path {s : State} {c : Byte} {l y : Idx} (hs : s.Ready)
    (hl : letterIdx (toUpper c) = some l) (hy : path s.cfg (steppedRecord s.cfg s.eng) l = some y) :
    ActsAs (messageByte c) s (advance 1 [letterOf y]) := by
  intro s' hs'
  rw [messageByte_of_letterIdx (hs'.ready hs) hl, encipher_of_path ((hs'.path_stepped hs l).trans hy)]

/-- In READY a message byte is an advance, or it is refused in every engine that is the same. -/
theorem messageByte_cases {s : State} (hs : s.Ready) (c : Byte) :
    Advances (messageByte c) s ∨
      ∀ s', SameEngine s s' → messageByte c s' = .refused .wiringNotBijective := by
  cases ha : isAlpha c with
  | false => exact .inl ⟨0, [], List.forall_mem_nil _, messageByte_actsAs_of_not_isAlpha hs ha⟩
  | true =>
    obtain ⟨l, hl⟩ := exists_letterIdx (isUpper_toUpper ha)
    cases hp : path s.cfg (steppedRecord s.cfg s.eng) l with
    | some y =>
      exact .inl ⟨1, [letterOf y], List.forall_mem_singleton.mpr (isUpper_letterOf y),
        messageByte_actsAs_of_path hs hl hp⟩
    | none =>
      refine .inr fun s' hs' => ?_
      rw [messageByte_of_letterIdx (hs'.ready hs) hl, encipher_of_path_eq_none ((hs'.path_stepped hs l).trans hp)]

theorem messageBytes_nil_actsAs (s : State) : ActsAs (messageBytes []) s (advance 0 []) := by
  intro s' _
  rw [advance_zero_nil]
  rfl

/-- A byte that does not fault hands its state to the rest of the message. -/
theorem messageBytes_cons_of_fault_eq_false {c : Byte} {cs : List Byte} {s u : State} (h : messageByte c s = .next u)
    (hu : u.fault = false) : messageBytes (c :: cs) s = messageBytes cs u := by
  simp [messageBytes_cons_of_next h, hu]

/-- The advance of the first byte and the advance of the rest from there are the advance of the message. -/
theorem messageBytes_cons_actsAs {c : Byte} {cs xs ys : List Byte} {m n : Nat} {s : State} (hs : s.Ready)
    (hfirst : ActsAs (messageByte c) s (advance m xs))
    (hrest : ActsAs (messageBytes cs) (advance m xs s) (advance n ys)) :
    ActsAs (messageBytes (c :: cs)) s (advance (m + n) (xs ++ ys)) := by
  intro s' hs'
  rw [messageBytes_cons_of_fault_eq_false (hfirst s' hs') (hs'.ready hs).1, hrest _ (hs'.after_advance m xs),
    advance_advance]

/-- With bijective wirings a message is an advance by its letters (R106). -/
theorem messageBytes_completes {s : State} (hs : s.Ready) (hbij : slotsBijective s.cfg s.eng) (text : List Byte) :
    ∃ ys, ys.length = (text.filter isAlpha).length ∧ AllUpper ys ∧
      ActsAs (messageBytes text) s (advance (text.filter isAlpha).length ys) := by
  induction text generalizing s with
  | nil => exact ⟨[], rfl, List.forall_mem_nil _, messageBytes_nil_actsAs s⟩
  | cons c cs ih =>
    cases ha : isAlpha c with
    | false =>
      obtain ⟨ys, hlen, hup, hrest⟩ := ih (s := advance 0 [] s) hs hbij
      have hall := messageBytes_cons_actsAs hs (messageByte_actsAs_of_not_isAlpha hs ha) hrest
      exact ⟨ys, by simpa [ha] using hlen, hup, by simpa [ha] using hall⟩
    | true =>
      obtain ⟨l, hl⟩ := exists_letterIdx (isUpper_toUpper ha)
      obtain ⟨y, hy⟩ := exists_path_stepped hbij l
      obtain ⟨ys, hlen, hup, hrest⟩ := ih (s := advance 1 [letterOf y] s) hs hbij
      have hall := messageBytes_cons_actsAs hs (messageByte_actsAs_of_path hs hl hy) hrest
      exact ⟨letterOf y :: ys, by simp [ha, hlen], List.forall_mem_cons.mpr ⟨isUpper_letterOf y, hup⟩,
        by simpa [ha, Nat.add_comm] using hall⟩

/-- Settles O41: the message is an advance by its letters. -/
theorem encmsgEnciphersTheLetters : Obligations.EncmsgEnciphersTheLetters := by
  intro s text hs hbij
  obtain ⟨ys, hlen, hup, hact⟩ := messageBytes_completes hs hbij text
  exact ⟨ys, hlen, fun y hy => (isUpper_iff y).mp (hup y hy), hact s (.refl s)⟩

/-- In a configured engine no message faults. -/
theorem messageBytes_fault_of_configured {s t : State} {text : List Byte} (hc : s.configured = true)
    (h : messageBytes text s = .next t) : t.fault = s.fault := by
  obtain ⟨n, ys, -, hact⟩ := messageBytes_advances hc h
  obtain rfl := hact.eq_of_next h
  exact advance_fault n ys s

/-- A message that does not fault hands its state to the bytes after it (R107). -/
theorem messageBytes_append {s t : State} {xs : List Byte} (ys : List Byte) (h : messageBytes xs s = .next t)
    (ht : t.fault = false) : messageBytes (xs ++ ys) s = messageBytes ys t := by
  induction xs generalizing s with
  | nil =>
    obtain rfl := next_eq_next.mp h
    rfl
  | cons c cs ih =>
    obtain ⟨u, hu⟩ := exists_messageByte_of_messageBytes_cons h
    have hcons := messageBytes_cons_of_next (cs := cs) hu
    cases hf : u.fault with
    | true =>
      rw [hcons, if_pos hf] at h
      obtain rfl := next_eq_next.mp h
      simp [hf] at ht
    | false =>
      rw [messageBytes_cons_of_fault_eq_false hu hf] at h
      rw [List.cons_append, messageBytes_cons_of_fault_eq_false hu hf]
      exact ih h

/-- Settles O42: in READY the first message does not fault. -/
theorem messagesConcatenate : Obligations.MessagesConcatenate := by
  intro s t xs ys ⟨hf, hc⟩ h
  exact messageBytes_append ys h ((messageBytes_fault_of_configured hc h).trans hf)

/-- Other events presented, the engine being the same. -/
theorem SameEngine.setPort (s : State) (es : List PortEvent) : SameEngine s { s with port := es } :=
  ⟨rfl, rfl, rfl, fun _ => rfl⟩

theorem stepMany_succ_of_next {s t : State} (h : step s = .next t) (n : Nat) :
    stepMany (n + 1) s = stepMany n t := by
  simp only [stepMany, h]

theorem stepMany_succ_of_refused {s : State} {r : Refusal} (h : step s = .refused r) (n : Nat) :
    stepMany (n + 1) s = .refused r := by
  simp only [stepMany, h]

theorem messageBytes_cons_of_refused {s : State} {c : Byte} {r : Refusal} (h : messageByte c s = .refused r)
    (cs : List Byte) : messageBytes (c :: cs) s = .refused r := by
  simp only [messageBytes, h]

theorem map_encode_encmsg_cons (c : Byte) (cs : List Byte) (rest : List PortEvent) :
    (encode (.encmsg (c :: cs))).map .byte ++ rest =
      (encode (.msgchr c)).map .byte ++ ((encode (.encmsg cs)).map .byte ++ rest) := by
  simp [encode]

/-- One step takes the first MSGCHR of a message at the port (R57, R62). -/
theorem step_encmsg_cons {s : State} (hs : s.Ready) (hasm : s.asm = []) (c : Byte) (cs : List Byte)
    (rest : List PortEvent) :
    step { s with port := (encode (.encmsg (c :: cs))).map .byte ++ rest } =
      messageByte c { s with port := (encode (.encmsg cs)).map .byte ++ rest } :=
  stepRunsSentCommand _ (.msgchr c) _ hs.1 hasm rfl (by simp) (map_encode_encmsg_cons c cs rest)

/-- Settles O43: each step runs one MSGCHR, which does the same whatever is presented after it. -/
theorem encmsgRunsAsItsCommands : Obligations.EncmsgRunsAsItsCommands := by
  intro s text rest hs hasm
  induction text generalizing s with
  | nil => rfl
  | cons c cs ih =>
    have hstep := step_encmsg_cons hs hasm c cs rest
    obtain ⟨n, ys, -, hact⟩ | hrefused := messageByte_cases hs c
    · rw [hact _ (.setPort s _)] at hstep
      have hrun : exec (.encmsg (c :: cs)) { s with port := rest } =
          exec (.encmsg cs) { advance n ys s with port := rest } :=
        messageBytes_cons_of_fault_eq_false (hact _ (.setPort s rest)) hs.1
      rw [List.length_cons, stepMany_succ_of_next hstep, hrun]
      exact ih (advance n ys s) hs hasm
    · rw [hrefused _ (.setPort s _)] at hstep
      rw [List.length_cons, stepMany_succ_of_refused hstep]
      exact (messageBytes_cons_of_refused (hrefused _ (.setPort s rest)) cs).symm

/-- Induction on the text: the engine that starts again meets each letter at the offsets at which it was enciphered,
where PATH relates the two letters both ways (R97, R110). -/
theorem messageBytes_reciprocal {s : State} (hs : s.Ready) (hrec : reciprocal s.cfg s.eng) (text : List Byte) :
    ∃ ys, ActsAs (messageBytes text) s (advance (text.filter isAlpha).length ys) ∧
      ActsAs (messageBytes ys) s
        (advance (text.filter isAlpha).length ((text.filter isAlpha).map toUpper)) := by
  induction text generalizing s with
  | nil => exact ⟨[], messageBytes_nil_actsAs s, messageBytes_nil_actsAs s⟩
  | cons c cs ih =>
    cases ha : isAlpha c with
    | false =>
      obtain ⟨ys, hthere, hback⟩ := ih (s := advance 0 [] s) hs hrec
      have hall := messageBytes_cons_actsAs hs (messageByte_actsAs_of_not_isAlpha hs ha) hthere
      rw [advance_zero_nil] at hback
      exact ⟨ys, by simpa [ha] using hall, by simpa [ha] using hback⟩
    | true =>
      obtain ⟨l, hl⟩ := exists_letterIdx (isUpper_toUpper ha)
      obtain ⟨y, hy⟩ := exists_path_stepped hrec.1 l
      have hy' : path s.cfg (steppedRecord s.cfg s.eng) y = some l :=
        (path_comm (e := steppedRecord s.cfg s.eng) hrec l y).mp hy
      have hyl : letterIdx (toUpper (letterOf y)) = some y := by
        rw [toUpper_of_isUpper (isUpper_letterOf y)]
        exact letterCodesAreInverse.1 y
      have hfold : letterOf l = toUpper c := (letterOf_eq_iff hl l).mpr rfl
      obtain ⟨ys, hthere, hback⟩ := ih (s := advance 1 [letterOf y] s) hs hrec
      have hthere' := messageBytes_cons_actsAs hs (messageByte_actsAs_of_path hs hl hy) hthere
      have hback' := messageBytes_cons_actsAs hs (messageByte_actsAs_of_path hs hyl hy')
        (hback.of_sameEngine (sameEngine_advance 1 [letterOf y] [letterOf l] s))
      exact ⟨letterOf y :: ys, by simpa [ha, Nat.add_comm] using hthere',
        by simpa [ha, Nat.add_comm, hfold] using hback'⟩

/-- Settles O45: the second CONSTRUCT commits the record of the first, and from there the ciphertext is turned back. -/
theorem messagesAreReciprocal : Obligations.MessagesAreReciprocal := by
  intro s s1 r plug text h hc hrec
  obtain ⟨hf, e, he, rfl⟩ := exists_commit_of_configured h hc
  have hready : (commit e s).Ready := ⟨hf, hc⟩
  obtain ⟨ys, hthere, hback⟩ := messageBytes_reciprocal hready hrec text
  have ht := hthere _ (.refl _)
  have hs2 : SameEngine (commit e s) (commit e (advance (text.filter isAlpha).length ys (commit e s))) :=
    ⟨rfl, rfl, rfl, fun _ => rfl⟩
  exact ⟨_, _, _, ys, ht, rfl, execConstruct_next.mpr ⟨hf, .inl ⟨e, he, rfl⟩⟩, hback _ hs2, rfl⟩

end Sys2Proof.Machine
end

section
/-! PROOFS. NotConfigured and IllegalCommand: what a command does without an engine, and what an opcode byte outside the
opcode map does at the port (`60_exceptions.md` R117, R120, `30_encoding.md` R58). -/

namespace Sys2Proof.Machine

/-- After the byte that faults no other byte of a message is accepted (`43_encrypt.md` R105). -/
theorem messageBytes_cons_of_unconfigured {s : State} (hf : s.fault = false) (hc : s.configured = false) (c : Byte)
    (cs : List Byte) : messageBytes (c :: cs) s = .next (raise .notConfigured 0x03 s) :=
  messageBytes_cons_of_next (messageByte_next.mpr ⟨hf, .inr (.inr ⟨hc, rfl⟩)⟩)

/-- Without an engine a command that needs one raises NotConfigured with its opcode byte and does nothing else (R117). -/
theorem exec_of_unconfigured {i : Instr} {op : Byte} {s : State} (hop : neededOpcode i = some op)
    (hf : s.fault = false) (hc : s.configured = false) : exec i s = .next (raise .notConfigured op s) := by
  cases i with
  | construct r plug => cases hop
  | encchr c => cases hop; exact execEncchr_next.mpr ⟨hf, .inr (.inr ⟨hc, rfl⟩)⟩
  | msgchr c => cases hop; exact messageByte_next.mpr ⟨hf, .inr (.inr ⟨hc, rfl⟩)⟩
  | step => cases hop; exact execStep_next.mpr ⟨hf, .inr ⟨hc, rfl⟩⟩
  | rdoff => cases hop; exact execRdoff_next.mpr ⟨hf, .inr ⟨hc, rfl⟩⟩
  | encmsg text =>
    cases text with
    | nil => cases hop
    | cons c cs => cases hop; exact messageBytes_cons_of_unconfigured hf hc c cs

/-- Settles O47: NotConfigured is raised, and raising it has no other visible effect. -/
theorem notConfiguredFaults : Obligations.NotConfiguredFaults := fun _ op s hop hf hc =>
  ⟨_, exec_of_unconfigured hop hf hc, faulted_raise .notConfigured op s⟩

theorem acceptBytes_of_illegal {s : State} {op : Byte} {more : List Byte}
    (h : decode (s.asm ++ leadingBytes s.port) = .illegal op more) :
    acceptBytes s =
      .next (raise .illegalCommand op { s with asm := [], port := more.map .byte ++ afterBytes s.port }) := by
  simp only [acceptBytes, h]

/-- Settles O7: the byte alone decodes to an illegal command, and what was presented after it is left as it was. -/
theorem illegalOpcodeFaults : Obligations.IllegalOpcodeFaults := by
  intro s op rest hf hasm hp hop
  have hdec : decode (s.asm ++ leadingBytes s.port) = .illegal op (leadingBytes rest) := by
    rw [hasm, hp]
    exact decode_of_notMem hop _
  have hafter : afterBytes s.port = afterBytes rest := by rw [hp]; rfl
  have hstep := (step_eq_acceptBytes hf hp).trans (acceptBytes_of_illegal hdec)
  rw [hafter, leading_append_after, ← hasm] at hstep
  exact ⟨_, hstep, faulted_raise .illegalCommand op { s with port := rest }⟩

end Sys2Proof.Machine
end

section
/-! PROOFS. The faults of CONSTRUCT. Its checks are made one after the other, so what one part of CONSTRUCT raises is the
first check of that part that fails, and parts put one after the other raise as their lists of checks appended
(`40_construct.md` R63 to R67, `60_exceptions.md` R113 to R116, R122). -/

namespace Sys2Proof.Machine

/-- The cause code and info byte of the first check in a list that fails. -/
def firstFailing (checks : List (BitVec 4 × Byte × Bool)) : Option (BitVec 4 × Byte) :=
  (checks.find? (fun k => !k.2.2)).map (fun k => (k.1, k.2.1))

theorem firstFault_eq (r : ConfigRecord) (plug : List Byte) :
    firstFault r plug = firstFailing (constructChecks r plug) := rfl

theorem firstFailing_append (ks ls : List (BitVec 4 × Byte × Bool)) :
    firstFailing (ks ++ ls) = (firstFailing ks).or (firstFailing ls) := by
  rw [firstFailing, List.find?_append, Option.map_or]
  rfl

theorem firstFailing_singleton (code : BitVec 4) (c : Byte) (ok : Bool) :
    firstFailing [(code, c, ok)] = if ok then none else some (code, c) := by
  cases ok <;> rfl

/-- The cause code and info byte of the fault that a part of CONSTRUCT is about to raise, if any. -/
def raisedFault {α : Type} : Except Raised α → Option (BitVec 4 × Byte)
  | .ok _ => none
  | .error f => some (causeCode f.cause, f.info)

@[simp] theorem raisedFault_ok {α : Type} (a : α) : raisedFault (.ok a : Except Raised α) = none := rfl

@[simp] theorem raisedFault_error {α : Type} (f : Raised) :
    raisedFault (.error f : Except Raised α) = some (causeCode f.cause, f.info) := rfl

/-- A part and then another raise the fault of the first, or else that of the second. -/
theorem raisedFault_bind {α β : Type} (x : Except Raised α) {f : α → Except Raised β} {v : Option (BitVec 4 × Byte)}
    (h : ∀ a, raisedFault (f a) = v) : raisedFault (x >>= f) = (raisedFault x).or v := by
  cases x with
  | ok a => exact h a
  | error e => rfl

/-- A check of one byte, decided by whether the byte is in its range. -/
theorem raisedFault_of_check {α : Type} {x : Except Raised α} {f : FaultCause} {c : Byte} {ok : Bool}
    (hok : ok = true → ∃ a, x = .ok a) (hbad : ok = false → x = .error ⟨f, c⟩) :
    raisedFault x = firstFailing [(causeCode f, c, ok)] := by
  cases ok with
  | true =>
    obtain ⟨a, rfl⟩ := hok rfl
    rfl
  | false =>
    rw [hbad rfl]
    rfl

theorem decodeReflector_of_not_byteIn {c : Byte} (h : byteIn 0x41 0x43 c = false) :
    decodeReflector c = .error ⟨.invalidReflector, c⟩ := by
  rw [← Bool.not_eq_true, byteIn_iff] at h
  obtain ⟨ha, hb, hc⟩ : c ≠ 0x41 ∧ c ≠ 0x42 ∧ c ≠ 0x43 := by bv_omega
  simp only [decodeReflector, reflectorOfCode, ha, hb, hc, if_false]

theorem decodeRotor_of_not_byteIn {c : Byte} (h : byteIn 0x31 0x35 c = false) :
    decodeRotor c = .error ⟨.invalidRotor, c⟩ := by
  rw [← Bool.not_eq_true, byteIn_iff] at h
  obtain ⟨h1, h2, h3, h4, h5⟩ : c ≠ 0x31 ∧ c ≠ 0x32 ∧ c ≠ 0x33 ∧ c ≠ 0x34 ∧ c ≠ 0x35 := by bv_omega
  simp only [decodeRotor, rotorOfCode, h1, h2, h3, h4, h5, if_false]

theorem decodeStart_of_not_byteIn {c : Byte} (h : byteIn 0x41 0x5A c = false) :
    decodeStart c = .error ⟨.invalidStart, c⟩ := by
  simp [decodeStart, (letterIdx_eq_none_iff c).mpr h]

theorem raisedFault_decodeReflector (c : Byte) :
    raisedFault (decodeReflector c) = firstFailing [(1, c, byteIn 0x41 0x43 c)] :=
  raisedFault_of_check (fun h => (decodeReflector_of_byteIn h).imp fun _ => And.left) decodeReflector_of_not_byteIn

theorem raisedFault_decodeRotor (c : Byte) :
    raisedFault (decodeRotor c) = firstFailing [(2, c, byteIn 0x31 0x35 c)] :=
  raisedFault_of_check (fun h => (decodeRotor_of_byteIn h).imp fun _ => And.left) decodeRotor_of_not_byteIn

theorem raisedFault_decodeStart (c : Byte) :
    raisedFault (decodeStart c) = firstFailing [(3, c, byteIn 0x41 0x5A c)] :=
  raisedFault_of_check (fun h => (decodeStart_of_byteIn h).imp fun _ => And.left) decodeStart_of_not_byteIn

/-- One check for each rotor slot, left to right (R65, R66). -/
theorem raisedFault_bank {α : Type} {decodeByte : Byte → Except Raised α} {check : Byte → BitVec 4 × Byte × Bool}
    (h : ∀ c, raisedFault (decodeByte c) = firstFailing [check c]) (c0 c1 c2 : Byte) :
    raisedFault (do
      let left ← decodeByte c0
      let middle ← decodeByte c1
      let right ← decodeByte c2
      return (⟨left, middle, right⟩ : Bank α)) = firstFailing ([c0, c1, c2].map check) := by
  have hbind := raisedFault_bind (decodeByte c0) fun left => raisedFault_bind (decodeByte c1) fun middle =>
    raisedFault_bind (decodeByte c2) fun right => raisedFault_ok (⟨left, middle, right⟩ : Bank α)
  simp only [h, Option.or_none, ← firstFailing_append] at hbind
  exact hbind

theorem raisedFault_decodeRotors (c0 c1 c2 : Byte) :
    raisedFault (decodeRotors c0 c1 c2) = firstFailing ([c0, c1, c2].map fun c => (2, c, byteIn 0x31 0x35 c)) :=
  raisedFault_bank raisedFault_decodeRotor c0 c1 c2

theorem raisedFault_decodeStarts (c0 c1 c2 : Byte) :
    raisedFault (decodeStarts c0 c1 c2) = firstFailing ([c0, c1, c2].map fun c => (3, c, byteIn 0x41 0x5A c)) :=
  raisedFault_bank raisedFault_decodeStart c0 c1 c2

/-- The checks of the bytes of plugboard tokens (R116). -/
def plugChecks (cs : List Byte) : List (BitVec 4 × Byte × Bool) := cs.map (fun c => (4, c, byteIn 0x41 0x5A c))

theorem plugChecks_append (cs ds : List Byte) : plugChecks (cs ++ ds) = plugChecks cs ++ plugChecks ds :=
  List.map_append

/-- Both bytes of a token of length 2, the first byte first (R69, R71). -/
theorem raisedFault_installPair (pb : Table) (a b : Byte) :
    raisedFault (installPair pb a b) = firstFailing (plugChecks [a, b]) := by
  cases ha : letterIdx a with
  | none =>
    have hbad : byteIn 0x41 0x5A a = false := (letterIdx_eq_none_iff a).mp ha
    simp [installPair, ha, plugChecks, firstFailing, hbad, causeCode]
  | some i =>
    have hok : byteIn 0x41 0x5A a = true := ((letterIdx_eq_some_iff a i).mp ha).1
    cases hb : letterIdx b with
    | none =>
      have hbad : byteIn 0x41 0x5A b = false := (letterIdx_eq_none_iff b).mp hb
      simp [installPair, ha, hb, plugChecks, firstFailing, hok, hbad, causeCode]
    | some j =>
      have hok' : byteIn 0x41 0x5A b = true := ((letterIdx_eq_some_iff b j).mp hb).1
      simp [installPair, ha, hb, plugChecks, firstFailing, hok, hok']

theorem finishTokens_cons (pb : Table) (t : List Byte) (ts : List (List Byte)) :
    finishTokens pb (t :: ts) = finishToken pb t >>= fun pb' => finishTokens pb' ts := by
  rw [finishTokens]
  cases finishToken pb t <;> rfl

/-- Induction on the tokens: one whose length is not 2 has no check, one of length 2 has those of its two bytes. -/
theorem raisedFault_finishTokens (pb : Table) (ts : List (List Byte)) :
    raisedFault (finishTokens pb ts) = firstFailing (plugChecks (ts.filter (fun t => t.length == 2)).flatten) := by
  induction ts generalizing pb with
  | nil => rfl
  | cons t ts ih =>
    rw [finishTokens_cons]
    by_cases h : t.length = 2
    · obtain ⟨a, b, rfl⟩ := List.length_eq_two.mp h
      have hfilter : (([a, b] :: ts).filter (fun t => t.length == 2)).flatten =
          [a, b] ++ (ts.filter (fun t => t.length == 2)).flatten := rfl
      rw [raisedFault_bind _ ih, hfilter, plugChecks_append, firstFailing_append, ← raisedFault_installPair pb]
      rfl
    · rw [finishToken_of_length_ne h, List.filter_cons_of_neg (by simpa using h)]
      exact ih pb

/-- CONSTRUCT is about to raise the fault of the first of its checks that fails (R63, R122). -/
theorem raisedFault_checkedRecord (r : ConfigRecord) (plug : List Byte) :
    raisedFault (checkedRecord r plug) = firstFault r plug := by
  have h := raisedFault_bind (decodeReflector r.reflector) fun refsel =>
    raisedFault_bind (decodeRotors r.rotorLeft r.rotorMiddle r.rotorRight) fun rsel =>
    raisedFault_bind (decodeStarts r.startLeft r.startMiddle r.startRight) fun off =>
    raisedFault_bind (buildPlugboard plug) fun pb => raisedFault_ok (⟨refsel, rsel, off, pb⟩ : EngineRecord)
  simp only [buildPlugboard, raisedFault_decodeReflector, raisedFault_decodeRotors, raisedFault_decodeStarts,
    raisedFault_finishTokens, Option.or_none, ← firstFailing_append] at h
  exact h

theorem firstFault_of_checkedRecord {r : ConfigRecord} {plug : List Byte} {f : Raised}
    (h : checkedRecord r plug = .error f) : firstFault r plug = some (causeCode f.cause, f.info) := by
  rw [← raisedFault_checkedRecord, h]
  rfl

/-- Settles O14: where a check fails the record is not built, and the fault raised is that of the first such check. -/
theorem constructFaultsInOrder : Obligations.ConstructFaultsInOrder := by
  intro s r plug code info hf hfirst
  cases he : checkedRecord r plug with
  | ok e => simp [← raisedFault_checkedRecord, he] at hfirst
  | error f =>
    obtain ⟨rfl, rfl⟩ := Prod.mk.inj (Option.some.inj ((firstFault_of_checkedRecord he).symm.trans hfirst))
    exact ⟨_, execConstruct_next.mpr ⟨hf, .inr ⟨f, he, rfl⟩⟩, faulted_raise f.cause f.info s⟩

end Sys2Proof.Machine
end

section
/-! PROOFS. What each command raises, and that FAULTED is left by nothing but a reset (`60_exceptions.md` R117 to R119, R121
to R123, R125). -/

namespace Sys2Proof.Machine

/-- A command that enters FAULTED has raised a fault, the one thing a command does that sets the flag. -/
theorem exec_eq_raise_of_fault {i : Instr} {s t : State} (hf : s.fault = false) (h : exec i s = .next t)
    (ht : t.fault = true) : ∃ f info, t = raise f info s := by
  obtain ⟨n, ys, -, rfl⟩ | ⟨-, hraise⟩ | ⟨r, plug, e, -, -, rfl⟩ := exec_next_cases h
  · simp [hf] at ht
  · exact hraise
  · simp [hf] at ht

/-- What advances does not fault. -/
theorem Advances.fault_eq {k : State → Host.Outcome State Fault Refusal} {s t : State} (hk : Advances k s)
    (h : k s = .next t) : t.fault = s.fault := by
  obtain ⟨n, ys, -, hact⟩ := hk
  rw [hact.eq_of_next h, advance_fault]

/-- Of the commands that need an engine only ENCCHR faults in a configured one. -/
theorem exec_fault_of_configured {i : Instr} {op : Byte} {s t : State} (hop : neededOpcode i = some op)
    (hi : ∀ c, i ≠ .encchr c) (hc : s.configured = true) (h : exec i s = .next t) : t.fault = s.fault := by
  cases i with
  | construct r plug => cases hop
  | encchr c => exact absurd rfl (hi c)
  | msgchr c => exact (messageByte_advances hc h).fault_eq h
  | step =>
    obtain ⟨-, ⟨-, rfl⟩ | ⟨hn, -⟩⟩ := execStep_next.mp h
    · rfl
    · simp [hc] at hn
  | rdoff =>
    obtain ⟨-, ⟨-, rfl⟩ | ⟨hn, -⟩⟩ := execRdoff_next.mp h
    · rfl
    · simp [hc] at hn
  | encmsg text => exact messageBytes_fault_of_configured hc h

/-- Such a command faults only without an engine, with NotConfigured and its opcode byte (R117). -/
theorem exec_notConfigured_of_fault {i : Instr} {op : Byte} {s t : State} (hop : neededOpcode i = some op)
    (hi : ∀ c, i ≠ .encchr c) (hf : s.fault = false) (h : exec i s = .next t) (ht : t.fault = true) :
    t.fcause = 5 ∧ t.finfo = op ∧ s.configured = false := by
  cases hc : s.configured with
  | true => simp [exec_fault_of_configured hop hi hc h, hf] at ht
  | false =>
    obtain rfl := next_eq_next.mp ((exec_of_unconfigured hop hf hc).symm.trans h)
    exact ⟨rfl, rfl, rfl⟩

theorem execConstruct_cause {r : ConfigRecord} {plug : List Byte} {s t : State} (hf : s.fault = false)
    (h : execConstruct r plug s = .next t) (ht : t.fault = true) :
    firstFault r plug = some (t.fcause, t.finfo) := by
  obtain ⟨-, ⟨e, -, rfl⟩ | ⟨f, he, rfl⟩⟩ := execConstruct_next.mp h
  · simp [hf] at ht
  · exact firstFault_of_checkedRecord he

/-- NotConfigured comes before BadSymbol (R117, R118, R122). -/
theorem execEncchr_cause {c : Byte} {s t : State} (hf : s.fault = false) (h : execEncchr c s = .next t)
    (ht : t.fault = true) :
    (t.fcause = 5 ∧ t.finfo = 0x02 ∧ s.configured = false) ∨
      (t.fcause = 6 ∧ t.finfo = c ∧ s.configured = true ∧ isUpper c = false) := by
  obtain ⟨-, ⟨hc, l, -, he⟩ | ⟨hc, hl, rfl⟩ | ⟨hc, rfl⟩⟩ := execEncchr_next.mp h
  · simp [(encipher_advances hc he).fault_eq he, hf] at ht
  · exact .inr ⟨rfl, rfl, hc, (letterIdx_eq_none_iff c).mp hl⟩
  · exact .inl ⟨rfl, rfl, hc⟩

/-- Settles O48: the fault is one that was raised, and command by command its cause is one the command has. -/
theorem faultCausesByCommand : Obligations.FaultCausesByCommand := by
  intro i s t hf h ht
  refine ⟨?_, ?_⟩
  · obtain ⟨f, info, rfl⟩ := exec_eq_raise_of_fault hf h ht
    exact faulted_raise f info s
  cases i with
  | construct r plug => exact execConstruct_cause hf h ht
  | encchr c => exact execEncchr_cause hf h ht
  | msgchr c => exact exec_notConfigured_of_fault (i := .msgchr c) rfl (by simp) hf h ht
  | step => exact exec_notConfigured_of_fault (i := .step) rfl (by simp) hf h ht
  | rdoff => exact exec_notConfigured_of_fault (i := .rdoff) rfl (by simp) hf h ht
  | encmsg text =>
    cases text with
    | nil =>
      obtain rfl := next_eq_next.mp h
      simp [hf] at ht
    | cons c cs => exact exec_notConfigured_of_fault (i := .encmsg (c :: cs)) rfl (by simp) hf h ht

theorem whenAccepting_of_fault {s : State} (hf : s.fault = true) (k : Host.Outcome State Fault Refusal) :
    whenAccepting s k = .fault (.stopped s.fcause s.finfo) := by
  rw [whenAccepting, if_pos hf]

/-- In FAULTED a command is stuck: each begins with the acceptance check, a message with that of its first byte (R123). -/
theorem exec_of_fault {i : Instr} {s : State} (hf : s.fault = true) (hi : i ≠ .encmsg []) :
    exec i s = .fault (.stopped s.fcause s.finfo) := by
  cases i with
  | construct r plug => exact whenAccepting_of_fault hf _
  | encchr c => exact whenAccepting_of_fault hf _
  | msgchr c => exact whenAccepting_of_fault hf _
  | step => exact whenAccepting_of_fault hf _
  | rdoff => exact whenAccepting_of_fault hf _
  | encmsg text =>
    cases text with
    | nil => exact absurd rfl hi
    | cons c cs =>
      have hfirst : messageByte c s = .fault (.stopped s.fcause s.finfo) := whenAccepting_of_fault hf _
      simp only [exec, execEncmsg, messageBytes, hfirst]

/-- No register or flag differs, and what the host took followed by what it has yet to take is the same (R123). -/
structure SameButTakings (s t : State) : Prop where
  fault : t.fault = s.fault
  fcause : t.fcause = s.fcause
  finfo : t.finfo = s.finfo
  configured : t.configured = s.configured
  eng : t.eng = s.eng
  asm : t.asm = s.asm
  cfg : t.cfg = s.cfg
  output : t.taken ++ t.out = s.taken ++ s.out

/-- Other events presented. -/
theorem SameButTakings.setPort (s : State) (es : List PortEvent) : SameButTakings s { s with port := es } :=
  ⟨rfl, rfl, rfl, rfl, rfl, rfl, rfl, rfl⟩

theorem SameButTakings.refl (s : State) : SameButTakings s s := .setPort s s.port

theorem SameButTakings.trans {s t u : State} (h : SameButTakings s t) (h' : SameButTakings t u) : SameButTakings s u :=
  ⟨h'.fault.trans h.fault, h'.fcause.trans h.fcause, h'.finfo.trans h.finfo, h'.configured.trans h.configured,
    h'.eng.trans h.eng, h'.asm.trans h.asm, h'.cfg.trans h.cfg, h'.output.trans h.output⟩

theorem step_byte_of_fault {s : State} {b : Byte} {rest : List PortEvent} (hf : s.fault = true)
    (hp : s.port = .byte b :: rest) : step s = .next { s with port := rest } := by
  simp [step, portStep, hp, hf]

/-- One step in FAULTED with no reset presented: idle, a taking, or a byte that lapses. -/
theorem step_of_fault {s : State} (hf : s.fault = true) (hreset : .reset ∉ s.port) :
    ∃ t, step s = .next t ∧ SameButTakings s t ∧ .reset ∉ t.port := by
  cases hp : s.port with
  | nil => exact ⟨s, step_idle hp, .refl s, hreset⟩
  | cons e rest =>
    obtain ⟨hne, hrest⟩ := List.ne_and_not_mem_of_not_mem_cons (hp ▸ hreset)
    cases e with
    | byte b => exact ⟨_, step_byte_of_fault hf hp, .setPort s rest, hrest⟩
    | reset => exact absurd rfl hne
    | take =>
      refine ⟨_, step_take hp, ?_, by simpa using hrest⟩
      constructor <;> simp

/-- Induction on the steps: after each the engine is still in FAULTED with no reset presented. -/
theorem stepMany_of_fault {s : State} (hf : s.fault = true) (hreset : .reset ∉ s.port) (n : Nat) :
    ∃ t, stepMany n s = .next t ∧ SameButTakings s t := by
  induction n generalizing s with
  | zero => exact ⟨s, rfl, .refl s⟩
  | succ n ih =>
    obtain ⟨u, hstep, hsame, hreset'⟩ := step_of_fault hf hreset
    obtain ⟨t, hmany, hsame'⟩ := ih (hsame.fault.trans hf) hreset'
    exact ⟨t, (stepMany_succ_of_next hstep n).trans hmany, hsame.trans hsame'⟩

/-- Settles O49: commands are stuck, and steps without a reset change nothing but where the output stands. -/
theorem faultedIsAbsorbing : Obligations.FaultedIsAbsorbing := by
  refine ⟨fun s i hf hi => exec_of_fault hf hi, fun n s hf hreset => ?_⟩
  obtain ⟨t, hmany, hsame⟩ := stepMany_of_fault hf hreset n
  exact ⟨t, hmany, hsame.fault.trans hf, hsame.fcause, hsame.finfo, hsame.configured, hsame.eng, hsame.asm, hsame.cfg,
    hsame.output⟩

end Sys2Proof.Machine
end

section
/-! PROOFS. Every step answers and uses up an event of the host's. With bijective rotor tables no accepted command is
refused, and a command that the assembler did not hold already takes at least one presented byte (`20_memory.md` R34,
`60_exceptions.md` R128, `70_reset_and_hazards.md` R140). -/

namespace Sys2Proof.Machine

/-- Legal tables give every engine legal wirings. -/
theorem slotsBijective_of_rotorsBijective {P : Params} (h : rotorsBijective P) (e : EngineRecord) :
    slotsBijective P e := fun i => h (rotorRow (bankAt e.rsel i))

theorem execConstruct_answers {s : State} (hf : s.fault = false) (r : ConfigRecord) (plug : List Byte) :
    ∃ t, execConstruct r plug s = .next t := by
  cases he : checkedRecord r plug with
  | ok e => exact ⟨_, execConstruct_next.mpr ⟨hf, .inl ⟨e, he, rfl⟩⟩⟩
  | error f => exact ⟨_, execConstruct_next.mpr ⟨hf, .inr ⟨f, he, rfl⟩⟩⟩

theorem encipher_answers {s : State} (h : slotsBijective s.cfg s.eng) (l : Idx) : ∃ t, encipher l s = .next t := by
  obtain ⟨y, -, hy⟩ := encipher_completes h l
  exact ⟨_, hy⟩

theorem execEncchr_answers {s : State} (hs : s.Ready) (h : slotsBijective s.cfg s.eng) (c : Byte) :
    ∃ t, execEncchr c s = .next t := by
  cases hl : letterIdx c with
  | none => exact ⟨_, execEncchr_next.mpr ⟨hs.1, .inr (.inl ⟨hs.2, hl, rfl⟩)⟩⟩
  | some l =>
    rw [execEncchr_of_letterIdx hl, whenConfigured_of_ready hs]
    exact encipher_answers h l

theorem messageByte_answers {s : State} (hs : s.Ready) (h : slotsBijective s.cfg s.eng) (c : Byte) :
    ∃ t, messageByte c s = .next t := by
  rw [messageByte_eq_elim, whenConfigured_of_ready hs]
  cases letterIdx (toUpper c) with
  | none => exact ⟨s, rfl⟩
  | some l => exact encipher_answers h l

theorem messageBytes_answers {s : State} (hs : s.Ready) (h : slotsBijective s.cfg s.eng) (text : List Byte) :
    ∃ t, messageBytes text s = .next t := by
  obtain ⟨ys, -, -, hact⟩ := messageBytes_completes hs h text
  exact ⟨_, hact s (.refl s)⟩

theorem exec_answers_of_ready {s : State} (hs : s.Ready) (h : slotsBijective s.cfg s.eng) (i : Instr) :
    ∃ t, exec i s = .next t := by
  cases i with
  | construct r plug => exact execConstruct_answers hs.1 r plug
  | encchr c => exact execEncchr_answers hs h c
  | msgchr c => exact messageByte_answers hs h c
  | step => exact ⟨_, exec_step_of_ready hs⟩
  | rdoff => exact ⟨_, exec_rdoff_of_ready hs⟩
  | encmsg text => exact messageBytes_answers hs h text

/-- An accepting engine answers every command: by doing its work, or with NotConfigured. -/
theorem exec_answers {s : State} (hf : s.fault = false) (h : rotorsBijective s.cfg) (i : Instr) :
    ∃ t, exec i s = .next t := by
  cases hc : s.configured with
  | true => exact exec_answers_of_ready ⟨hf, hc⟩ (slotsBijective_of_rotorsBijective h s.eng) i
  | false =>
    cases hop : neededOpcode i with
    | some op => exact ⟨_, exec_of_unconfigured hop hf hc⟩
    | none =>
      cases i with
      | construct r plug => exact execConstruct_answers hf r plug
      | encmsg text =>
        cases text with
        | nil => exact ⟨s, rfl⟩
        | cons c cs => cases hop
      | _ => cases hop

/-- An illegal command is its opcode byte alone (R58). -/
theorem eq_cons_of_decode_illegal {bs more : List Byte} {op : Byte} (h : decode bs = .illegal op more) :
    bs = op :: more ∧ op ∉ [0x01, 0x02, 0x03, 0x04, 0x05] := by
  cases bs with
  | nil => cases h
  | cons b bs =>
    by_cases hb : b ∈ [0x01, 0x02, 0x03, 0x04, 0x05]
    · simp only [List.mem_cons, List.not_mem_nil, or_false] at hb
      obtain rfl | rfl | rfl | rfl | rfl := hb
      · exact absurd h (decodeConstruct_ne_illegal bs op more)
      · exact absurd h (decodeEncchr_ne_illegal bs op more)
      · exact absurd h (decodeMsgchr_ne_illegal bs op more)
      · cases h
      · cases h
    · obtain ⟨rfl, rfl⟩ := Decoded.illegal.inj ((decode_of_notMem hb bs).symm.trans h)
      exact ⟨rfl, hb⟩

/-- A command completed by the bytes `ys` takes some of them: had it left them all over, the bytes before them were a
whole command already (R57). -/
theorem length_lt_of_decode_append {xs ys cmd more : List Byte} (hxs : decode xs = .incomplete)
    (hwhole : ∀ zs, decode (cmd ++ zs) ≠ .incomplete) (h : xs ++ ys = cmd ++ more) : more.length < ys.length := by
  by_contra hle
  have hlen := congrArg List.length h
  simp only [List.length_append] at hlen
  obtain ⟨zs, rfl⟩ : cmd <+: xs :=
    List.prefix_of_prefix_length_le ⟨more, h.symm⟩ ⟨ys, rfl⟩ (by omega)
  exact hwhole zs hxs

/-- What follows a command has no part in its being whole. -/
theorem length_more_lt_of_command {xs ys more : List Byte} {i : Instr} (hxs : decode xs = .incomplete)
    (h : decode (xs ++ ys) = .command i more) : more.length < ys.length := by
  obtain ⟨hbytes, hwf, hi⟩ := eq_encode_append_of_decode h
  exact length_lt_of_decode_append hxs (fun zs => by simp [decode_encode_append hwf hi]) hbytes

theorem length_more_lt_of_illegal {xs ys more : List Byte} {op : Byte} (hxs : decode xs = .incomplete)
    (h : decode (xs ++ ys) = .illegal op more) : more.length < ys.length := by
  obtain ⟨hbytes, hop⟩ := eq_cons_of_decode_illegal h
  exact length_lt_of_decode_append (cmd := [op]) hxs (fun zs => by simp [decode_of_notMem hop]) hbytes

theorem length_port (es : List PortEvent) : es.length = (leadingBytes es).length + (afterBytes es).length := by
  simpa using (congrArg List.length (leading_append_after es)).symm

/-- Bytes accepted: a command runs, an illegal opcode byte faults, or they all wait; in each case some leave the port. -/
theorem acceptBytes_progresses {s : State} (hf : s.fault = false) (hbij : rotorsBijective s.cfg)
    (hasm : decode s.asm = .incomplete) (hlead : leadingBytes s.port ≠ []) :
    ∃ t, acceptBytes s = .next t ∧ t.port.length < s.port.length := by
  rw [length_port s.port]
  cases hdec : decode (s.asm ++ leadingBytes s.port) with
  | command i more =>
    obtain ⟨t, ht⟩ := exec_answers (s := { s with asm := [], port := more.map .byte ++ afterBytes s.port }) hf hbij i
    obtain ⟨-, -, hport, -⟩ := exec_hostSideKept ht
    refine ⟨t, (acceptBytes_of_command hdec).trans ht, ?_⟩
    simpa [hport] using length_more_lt_of_command hasm hdec
  | illegal op more =>
    refine ⟨_, acceptBytes_of_illegal hdec, ?_⟩
    simpa using length_more_lt_of_illegal hasm hdec
  | incomplete =>
    refine ⟨_, acceptBytes_of_incomplete hdec, ?_⟩
    simpa using List.length_pos_iff.mpr hlead

theorem step_reset {s : State} {rest : List PortEvent} (hp : s.port = .reset :: rest) :
    step s = .next (resetEvent { s with port := rest }) := by
  simp [step, portStep, hp]

/-- Settles O54: by the event presented; for a command byte by what the engine accepts, or that it lapses in FAULTED. -/
theorem everyStepProgresses : Obligations.EveryStepProgresses := by
  intro s hbij hasm
  cases hp : s.port with
  | nil => exact ⟨s, step_idle hp, fun hne => absurd rfl hne⟩
  | cons e rest =>
    have hrest : rest.length < (e :: rest).length := Nat.lt_succ_self _
    cases e with
    | reset => exact ⟨_, step_reset hp, fun _ => hrest⟩
    | take => exact ⟨_, step_take hp, fun _ => by simp⟩
    | byte b =>
      cases hf : s.fault with
      | true => exact ⟨_, step_byte_of_fault hf hp, fun _ => hrest⟩
      | false =>
        obtain ⟨t, ht, hlt⟩ := acceptBytes_progresses hf hbij hasm (by simp [hp, leadingBytes])
        exact ⟨t, (step_eq_acceptBytes hf hp).trans ht, fun _ => hp ▸ hlt⟩

end Sys2Proof.Machine
end

section
/-! PROOFS. A reset event, and that nothing else leaves FAULTED (`70_reset_and_hazards.md` R129, R130). -/

namespace Sys2Proof.Machine

/-- In FAULTED no command is run and no byte is kept, so without a reset a step is idle, a taking, or a byte that lapses. -/
theorem step_keeps_fault {s t : State} (hf : s.fault = true) (ht : step s = .next t)
    (hreset : s.port.head? ≠ some .reset) : t.fault = true := by
  obtain ⟨-, rfl⟩ | ⟨rest, hp, -⟩ | ⟨rest, -, rfl⟩ | ⟨b, rest, -, -, rfl⟩ | ⟨i, more, haccept, -⟩ |
    ⟨op, more, haccept, -⟩ | ⟨haccept, -⟩ := step_next ht
  · exact hf
  · exact absurd (congrArg List.head? hp) hreset
  · exact (takeOutput_fault _).trans hf
  · exact hf
  all_goals simp [hf] at haccept

/-- Settles O1: the step at a reset event is `resetEvent` on what is presented after it, and in FAULTED every other step
keeps the fault flag. -/
theorem resetEventClears : Obligations.ResetEventClears :=
  ⟨fun s rest hp => ⟨resetEvent { s with port := rest }, step_reset hp, by simp⟩,
    fun _ _ hf ht hreset => step_keeps_fault hf ht hreset⟩

end Sys2Proof.Machine
end
